-- ==== Sys2Proof/Word.lean ====
section
/-! DEFINITION. The sequencer's words: bytes, levels, the two operating modes with HALT, and the event
alphabet (00_scope.md R9, R11; 10_state.md R21). -/

namespace Sys2Proof

/-- A byte: 8 bits, unsigned (R9). -/
abbrev Byte := BitVec 8

/-- A level of a line: `true` is high (1), `false` is low (0) (R9). -/
abbrev Level := Bool

/-- The control state (R21). `halt` is the state after the fatal fault (R190). -/
inductive Mode where
  | idle
  | raw
  | halt
deriving DecidableEq, Repr

/-- What another agent can observe of the sequencer (R11). -/
inductive Event where
  /-- byte consumed from the host -/
  | rx (b : Byte)
  /-- byte sent to the host -/
  | tx (b : Byte)
  /-- CLOCK line driven -/
  | clk (l : Level)
  /-- DATA line driven -/
  | dat (l : Level)
  /-- DATA line sampled, with the level seen -/
  | smp (v : Level)
  /-- a hold of one microsecond -/
  | dly
deriving DecidableEq, Repr

end Sys2Proof
end

