-- ==== Sys2Proof/Config.lean ====
section
/-! DEFINITION. What is fixed for the machine: the parameters the source fixes (00_scope.md R6), those the
spec decides (R7), and the free values, which no rule fixes (opaque: they have no value inside Lean). -/

namespace Sys2Proof.Config

/-- `CNT_THRESHOLD` (R6): the counter value at which the Idle banner is sent. -/
def cntThreshold : BitVec 5 := 20

/-- `NUL_BYTE` (R6). -/
def nulByte : Byte := 0x00

/-- `ENTER_BYTE` (R6). -/
def enterByte : Byte := 0x05

/-- `ACK` (R6): the acknowledgment byte. -/
def ack : Byte := 0x01

/-- `BIT_LOW_REPLY` (R6): the reply of the sample command when the line was low. -/
def bitLowReply : Byte := 0x00

/-- `T_HOLD_US` (R6): every hold is a delay of one microsecond. -/
def holdUs : Nat := 1

/-- `BITS_PER_BYTE` (R6): iterations of each primitive. -/
def bitsPerByte : Nat := 8

/-- `N_MAX` (R6): the largest count of a bulk command. -/
def countMax : Nat := 16

/-- `BANNER_IDLE` (R6): the ASCII codes of `BBIO1` (R2, R52; UNVERIFIED, log 15). -/
def bannerIdle : List Byte := [0x42, 0x42, 0x49, 0x4F, 0x31]

/-- `BANNER_RAW` (R6): the ASCII codes of `RAW1` (R2, R52; UNVERIFIED, log 15). -/
def bannerRaw : List Byte := [0x52, 0x41, 0x57, 0x31]

/-- `BAUD_REF` (R6, R233): bits per second of the excluded UART; no rule depends on it. -/
def baudRef : Nat := 115200

/-- `CNT_RESET` (R7). -/
def cntReset : BitVec 5 := 0

/-- `TICKS_PER_US` (R7, R230): OPEN, timing only; no rule of the machine reads it (log 14). -/
opaque ticksPerUs : Nat

/-- FREE VALUE: the level the wire environment answers at a sample it has not answered ahead (R58), for the
count of free values taken so far and the events so far: both, so that no two samples need be alike and an
answer may depend on everything the environment has seen (log 5). -/
opaque wireLevel : Nat → List Event → Level

/-- FREE VALUE: `draw({0..19})` of R130, for the count of free values taken so far and the events so far
(log 6). The bound is the spec's, the value is nobody's. -/
opaque drawnCount : Nat → List Event → Fin 20

end Sys2Proof.Config
end

