-- ==== Sys2Proof/Machine/Operands.lean ====
section
/-! DEFINITION. The operand forms of a command byte (30_encoding.md R81, R83), both ways, and the 2-bit encoding of
the mode (10_state.md R21). -/

namespace Sys2Proof.Machine

/-- Format L: the level is `cmd[0]` (R83 (a)). -/
def operandLevel (b : Byte) : Level := b.getLsbD 0

/-- Formats C and G: the field `cmd[3:0]` (R81). -/
def operandNibble (b : Byte) : BitVec 4 := b.extractLsb' 0 4

/-- The count of a bulk command: N = n + 1, 1 to 16 (R83 (b)). -/
def operandCount (n : BitVec 4) : Nat := n.toNat + 1

/-- A level as the low bit of a byte (R100: `0x0A | l`). -/
def levelByte (l : Level) : Byte := if l then 0x01 else 0x00

/-- A 4-bit field as the low bits of a byte (R100: `0x10 | (N - 1)`, `0x40 | x`). -/
def nibbleByte (n : BitVec 4) : Byte := n.setWidth 8

/-- `MODE_ENC` (R7, R21): IDLE = 0, RAW = 1, HALT = 2; 3 is never held. -/
def modeBits : Mode → BitVec 2
  | .idle => 0
  | .raw => 1
  | .halt => 2

end Sys2Proof.Machine
end

