-- ==== Sys2Proof/Syntax.lean ====
section
/-! DEFINITION. The commands, one constructor per row of spec/opcode_table.json (30_encoding.md R86, R87), and
the lines of a host script (R100). -/

namespace Sys2Proof

/-- A command byte, decoded. `nul`, `enter`, `ign` belong to the Idle table (R86), the others to the raw-wire
table (R87). -/
inductive Instr where
  /-- `NUL` (R110) -/
  | nul
  /-- `ENTER` (R111) -/
  | enter
  /-- `IGN b` (R112): any other Idle byte -/
  | ign (b : Byte)
  /-- `EXIT` (R130) -/
  | exit
  /-- `REANN` (R131) -/
  | reann
  /-- `RDBYTE` (R172) -/
  | rdbyte
  /-- `RDBIT` (R151) -/
  | rdbit
  /-- `CLKTICK` (R152) -/
  | clktick
  /-- `SETCLK l` (R153) -/
  | setclk (l : Level)
  /-- `SETDAT l` (R154) -/
  | setdat (l : Level)
  /-- `BWRITE` (R173) with its count field: N = n + 1 data bytes follow, read while it runs (R84) -/
  | bwrite (n : BitVec 4)
  /-- `BCLK N` (R155) with its count field -/
  | bclk (n : BitVec 4)
  /-- `CFGPER x` (R132) -/
  | cfgper (x : BitVec 4)
  /-- `CFGSPD x` (R133) -/
  | cfgspd (x : BitVec 4)
  /-- `CFGMODE x` (R134) -/
  | cfgmode (x : BitVec 4)
  /-- `ILL b` (R135): any other raw-wire byte -/
  | ill (b : Byte)
deriving DecidableEq, Repr

/-- One line of a host script (R100): a command and the data bytes that follow its command byte (none but for
`BWRITE`). -/
structure HostLine where
  instr : Instr
  data : List Byte
deriving DecidableEq, Repr

end Sys2Proof
end

