-- ==== Sys2Proof/WellFormed.lean ====
section
/-! DEFINITION. Which commands the encoding admits: `IGN` and `ILL` name the bytes that no other row of their
table matches (30_encoding.md R86, R89); every other field admits all its values (R81). -/

namespace Sys2Proof

/-- The byte values of rule R89's list, range by range: the 167 illegal raw-wire bytes. -/
def illegalRaw (b : Byte) : Bool :=
  (0x02 ≤ b && b ≤ 0x05) || b == 0x08 || b == 0x0E || b == 0x0F ||
  (0x30 ≤ b && b ≤ 0x3F) || (0x50 ≤ b && b ≤ 0x5F) || (0x70 ≤ b && b ≤ 0x7F) || (0x90 ≤ b)

/-- The 254 byte values that Idle discards (R86, R91). -/
def ignoredIdle (b : Byte) : Bool :=
  b != 0x00 && b != 0x05

/-- A command some byte encodes (R100's operand ranges). -/
def Instr.wf : Instr → Bool
  | .ign b => ignoredIdle b
  | .ill b => illegalRaw b
  | _ => true

end Sys2Proof
end

