-- ==== Sys2Proof/Decode.lean ====
section
/-! DEFINITION. The two decode tables (30_encoding.md R86, R87) and the decoder, total on any bytes; the encoder
and the host-script notation (R100, R101); the words of spec/opcode_table.json. -/

namespace Sys2Proof

open Sys2Proof.Machine

/-- One row of a decode table: it matches a byte `b` when `(b & mask) = pat` (R87). -/
structure OpRow where
  pat : Byte
  mask : Byte
  make : Byte → Instr

/-- `(b & mask) == match` (R87). -/
def OpRow.hits (r : OpRow) (b : Byte) : Bool := b &&& r.mask == r.pat

/-- The rows of R86 but the default one. -/
def idleRows : List OpRow :=
  [⟨Config.nulByte, 0xFF, fun _ => .nul⟩,
   ⟨Config.enterByte, 0xFF, fun _ => .enter⟩]

/-- The twelve legal rows of R87, in its order. -/
def rawRows : List OpRow :=
  [⟨0x00, 0xFF, fun _ => .exit⟩,
   ⟨0x01, 0xFF, fun _ => .reann⟩,
   ⟨0x06, 0xFF, fun _ => .rdbyte⟩,
   ⟨0x07, 0xFF, fun _ => .rdbit⟩,
   ⟨0x09, 0xFF, fun _ => .clktick⟩,
   ⟨0x0A, 0xFE, fun b => .setclk (operandLevel b)⟩,
   ⟨0x0C, 0xFE, fun b => .setdat (operandLevel b)⟩,
   ⟨0x10, 0xF0, fun b => .bwrite (operandNibble b)⟩,
   ⟨0x20, 0xF0, fun b => .bclk (operandNibble b)⟩,
   ⟨0x40, 0xF0, fun b => .cfgper (operandNibble b)⟩,
   ⟨0x60, 0xF0, fun b => .cfgspd (operandNibble b)⟩,
   ⟨0x80, 0xF0, fun b => .cfgmode (operandNibble b)⟩]

/-- The first row that matches, else the table's default row. -/
def decodeWith (rows : List OpRow) (default : Byte → Instr) (b : Byte) : Instr :=
  match rows.find? (·.hits b) with
  | some r => r.make b
  | none => default b

/-- `DecodeIdle(b)` (R86). -/
def decodeIdle (b : Byte) : Instr := decodeWith idleRows .ign b

/-- `DecodeRaw(b)` (R87): a byte no row matches is illegal (R89). -/
def decodeRaw (b : Byte) : Instr := decodeWith rawRows .ill b

/-- Why no command is read. -/
inductive DecodeRefusal where
  /-- no byte is there yet: the read blocks (R51) -/
  | needByte
  /-- in HALT nothing is decoded because nothing is read (R85) -/
  | halted
deriving DecidableEq, Repr

/-- The decoder: a command and the bytes behind its command byte. The mode is the only thing that changes decoding
(R85). The data bytes of `BWRITE` are not part of it: they are never decoded (R84). -/
def decode : Mode → List Byte → Except DecodeRefusal (Instr × List Byte)
  | .halt, _ => .error .halted
  | _, [] => .error .needByte
  | .idle, b :: rest => .ok (decodeIdle b, rest)
  | .raw, b :: rest => .ok (decodeRaw b, rest)

/-- The command byte (R100's column "bytes sent"). -/
def encodeByte : Instr → Byte
  | .nul => 0x00
  | .enter => 0x05
  | .ign b => b
  | .exit => 0x00
  | .reann => 0x01
  | .rdbyte => 0x06
  | .rdbit => 0x07
  | .clktick => 0x09
  | .setclk l => 0x0A ||| levelByte l
  | .setdat l => 0x0C ||| levelByte l
  | .bwrite n => 0x10 ||| nibbleByte n
  | .bclk n => 0x20 ||| nibbleByte n
  | .cfgper x => 0x40 ||| nibbleByte x
  | .cfgspd x => 0x60 ||| nibbleByte x
  | .cfgmode x => 0x80 ||| nibbleByte x
  | .ill b => b

/-- The words of a command: its command byte (R80). -/
def encode (i : Instr) : List Byte := [encodeByte i]

/-- The mode a command is sent in (R86, R87, R100). -/
def Instr.table : Instr → Mode
  | .nul => .idle
  | .enter => .idle
  | .ign _ => .idle
  | .exit => .raw
  | .reann => .raw
  | .rdbyte => .raw
  | .rdbit => .raw
  | .clktick => .raw
  | .setclk _ => .raw
  | .setdat _ => .raw
  | .bwrite _ => .raw
  | .bclk _ => .raw
  | .cfgper _ => .raw
  | .cfgspd _ => .raw
  | .cfgmode _ => .raw
  | .ill _ => .raw

/-- How many data bytes follow the command byte: N for `BWRITE`, none else (R80, R84). -/
def Instr.dataBytes : Instr → Nat
  | .bwrite n => operandCount n
  | _ => 0

/-- The mode a completed command leaves (R200). -/
def Instr.modeAfter (m : Mode) : Instr → Mode
  | .enter => .raw
  | .exit => .idle
  | .ill _ => .halt
  | _ => m

/-- A line of a host script: a well-formed command with exactly its data bytes (R100). -/
def HostLine.wf (line : HostLine) : Bool :=
  line.instr.wf && line.data.length == line.instr.dataBytes

/-- The bytes a line of a host script sends (R100). -/
def HostLine.bytes (line : HostLine) : List Byte := encode line.instr ++ line.data

/-- The bytes a host script sends (R100). -/
def assemble (script : List HostLine) : List Byte := script.flatMap HostLine.bytes

/-- A line that is its command byte alone. -/
def HostLine.plain (i : Instr) : HostLine := ⟨i, []⟩

/-- `SYNC` (R101): `NUL` twenty times. -/
def pseudoSync : List HostLine := List.replicate 20 (.plain .nul)

/-- `CLKLO` (R101). -/
def pseudoClklo : List HostLine := [.plain (.setclk false)]

/-- `CLKHI` (R101). -/
def pseudoClkhi : List HostLine := [.plain (.setclk true)]

/-- `DATLO` (R101). -/
def pseudoDatlo : List HostLine := [.plain (.setdat false)]

/-- `DATHI` (R101). -/
def pseudoDathi : List HostLine := [.plain (.setdat true)]

/-- `WRITE b` (R101). -/
def pseudoWrite (b : Byte) : List HostLine := [⟨.bwrite 0, [b]⟩]

/-- The low `k` bytes of a number, least significant first: the numbering of the words of spec/opcode_table.json that the
host's interface asks for. The sequencer itself has no multi-byte quantity and no endianness (R57): DESIGN CHOICE, log 12. -/
def lowBytes : Nat → Nat → List Byte
  | 0, _ => []
  | k + 1, w => BitVec.ofNat 8 w :: lowBytes k (w / 256)

/-- The bytes of a word of spec/opcode_table.json, `nbits` long, the first byte its low 8 bits; there is always a
command byte. -/
def tableBytes (nbits w : Nat) : List Byte :=
  lowBytes (max 1 ((nbits + 7) / 8)) (w % 2 ^ nbits)

/-- The mode under which a table word is read. A word of spec/opcode_table.json does not say which of the two tables
it belongs to: the two exact rows of the Idle table come first (Idle is the mode at reset), then the legal raw-wire
rows, then Idle's default row (DESIGN CHOICE, log 12). -/
def tableMode (bs : List Byte) : Mode :=
  match bs with
  | [] => .idle
  | b :: _ =>
    if idleRows.any (·.hits b) then .idle
    else if rawRows.any (·.hits b) then .raw
    else .idle

/-- The instruction the decoder reads from a word of spec/opcode_table.json. -/
def decodeTableWord (nbits w : Nat) : Option Instr :=
  match decode (tableMode (tableBytes nbits w)) (tableBytes nbits w) with
  | .ok (i, _) => some i
  | .error _ => none

/-- The bytes of that instruction up to its last data byte, the bits above `nbits` zero (R84). -/
def tableStream (nbits w : Nat) : List Byte :=
  let bs := tableBytes nbits w
  match decodeTableWord nbits w with
  | some i => bs ++ List.replicate (1 + i.dataBytes - bs.length) 0x00
  | none => bs

end Sys2Proof
end

