-- ==== Sys2Proof/Machine/Flags.lean ====
section
/-! DEFINITION. The sequencer has no flags (10_state.md R33). Here stands, in their place, all its arithmetic: the idle
counter's (40_mode_controller.md R114) and that of the Transfer Byte (43_bitbang_transfer.md R174). -/

namespace Sys2Proof.Machine

/-- `cnt + 1` (R110, R114). At most 20 from 0..19; beyond, where no run comes, 5 bits wrap (log 13). -/
def cntNext (cnt : BitVec 5) : BitVec 5 := cnt + 1

/-- The comparison of R110, made with the value after the increment. -/
def cntAnnounces (cnt : BitVec 5) : Bool := cnt == Config.cntThreshold

/-- `draw({0..19})` as a counter value (R130). -/
def cntDrawn (c : Fin 20) : BitVec 5 := BitVec.ofNat 5 c.val

/-- `sh >> 1`: a zero enters at bit 7 (R9, R174). -/
def shiftRight (sh : Byte) : Byte := sh >>> 1

/-- `(sh >> 1) | (v << 7)` (R27 `uSMPacc`, R171). -/
def shiftIn (v : Level) (sh : Byte) : Byte := shiftRight sh ||| (if v then 0x80 else 0x00)

/-- The reply of `RDBIT` (R151, R27 `uTXsmp`). -/
def sampleReply (v : Level) : Byte := if v then 0x01 else Config.bitLowReply

end Sys2Proof.Machine
end

