-- ==== Sys2Proof/Machine/State.lean ====
section
/-! DEFINITION. The state of the sequencer (10_state.md R20), its value after reset (R37), and the reasons a step can
stop. -/

namespace Sys2Proof.Machine

/-- The micro-operations of R27. -/
inductive MicroOp where
  /-- `uTX(b)`: send `b` -/
  | tx (b : Byte)
  /-- `uTXsh`: send `sh` -/
  | txSh
  /-- `uTXsmp`: send 0x01 if `smp` is 1, else 0x00 -/
  | txSmp
  /-- `uCLK(l)`: drive CLOCK -/
  | clk (l : Level)
  /-- `uDAT(l)`: drive DATA -/
  | dat (l : Level)
  /-- `uDATsh`: drive DATA to `sh[0]` -/
  | datSh
  /-- `uDLY`: hold for one microsecond -/
  | dly
  /-- `uSMP`: sample DATA into `smp` -/
  | smp
  /-- `uSMPacc`: sample DATA into `smp` and into the top of `sh`, shifted -/
  | smpAcc
  /-- `uSHR`: shift `sh` right by one (silent) -/
  | shr
  /-- `uRXsh`: read a data byte into `sh` -/
  | rxSh
  /-- `uMODE(m)`: write `mode` (silent) -/
  | mode (m : Mode)
  /-- `uCNT0`: clear `cnt` (silent) -/
  | cnt0
  /-- `uCNTx`: draw `cnt` from 0..19 (silent) -/
  | cntX
deriving DecidableEq, Repr

/-- The state (R20), with the environment's elements `rx` and `trace` (R20, R28, R11) and two fields of the model's
own, `wire` and `draws`. -/
structure State where
  /-- R21 -/
  mode : Mode
  /-- R22: the idle handshake counter -/
  cnt : BitVec 5
  /-- R23: the level last driven on CLOCK; `none` is the spec's own "no value", before the first drive after reset
  (R37, R55; log 4) -/
  clk : Option Level
  /-- R23: the level last driven on DATA; `none` as for `clk` -/
  dat : Option Level
  /-- R24: the Transfer Byte -/
  sh : Byte
  /-- R25: the last sampled level -/
  smp : Level
  /-- R26: the last byte fetched as a command -/
  cmd : Byte
  /-- R27: what remains to be done of the current command -/
  uq : List MicroOp
  /-- R28: the bytes the host has sent and the sequencer has not read, oldest first -/
  rx : List Byte
  /-- R11: the events so far, in order -/
  trace : List Event
  /-- The model's own: levels the wire environment has fixed for the samples to come, oldest first (log 5) -/
  wire : List Level
  /-- The model's own: how many free values have been taken (log 7) -/
  draws : Nat
deriving DecidableEq, Repr

/-- The state right after reset (R37, R220). `sh`, `smp` and `cmd` have no reset value in the spec: the zeros are
DESIGN CHOICE (log 3), as are the model's own `wire` (log 5) and `draws` (log 7). -/
def State.reset : State where
  mode := .idle
  cnt := Config.cntReset
  clk := none
  dat := none
  sh := 0x00
  smp := false
  cmd := 0x00
  uq := []
  rx := []
  trace := []
  wire := []
  draws := 0

/-- Why a step stops for good. -/
inductive Fault where
  /-- Raised by `step` when `mode = HALT` (R12 *halted*, R190): no step is enabled until reset. Safe: the spec gives
  a halted sequencer no step. -/
  | halted
deriving DecidableEq, Repr

/-- Why a step has no meaning. -/
inductive Refusal where
  /-- Raised by an arm of `exec` whose instruction has no meaning yet; none is left. Safe. -/
  | notModelled (mnemonic : String)
deriving DecidableEq, Repr

/-- What the sequencer can do next (R12, R27); found by `State.work`. -/
inductive Work where
  /-- no step, until reset -/
  | halted
  /-- a byte of the serial input is needed and none is there -/
  | blocked
  /-- a command was fetched: it is executed in this state -/
  | command (i : Instr) (s : State)
  /-- a pending micro-operation was performed, giving this state -/
  | micro (s : State)
deriving DecidableEq, Repr

end Sys2Proof.Machine
end

