-- ==== Sys2Proof/Machine/Ops.lean ====
section
/-! DEFINITION. The named operations over the state: the primitives of 00_scope.md R10, the fatal fault
(60_exceptions.md R190, R196) and the reset beside it (70_reset_and_hazards.md R220), the micro-operations and the choice of
the next work (10_state.md R27). -/

namespace Sys2Proof.Machine

/-- Record one event at the end of the trace (R11). -/
def State.emit (s : State) (e : Event) : State := { s with trace := s.trace ++ [e] }

/-- `RxRead()` (R10, R51): the oldest byte, removed; `none` while no byte is there. -/
def State.rxRead (s : State) : Option (Byte × State) :=
  match s.rx with
  | [] => none
  | b :: rest => some (b, { s with rx := rest, trace := s.trace ++ [.rx b] })

/-- `TxWrite(b)` (R10, R52): it always completes (R28; log 9). -/
def State.txWrite (s : State) (b : Byte) : State := s.emit (.tx b)

/-- `TxString` (R10, R52): each byte, first character first. -/
def State.txString (s : State) : List Byte → State
  | [] => s
  | b :: bs => (s.txWrite b).txString bs

/-- `ClkSet(l)` (R10, R53). -/
def State.clkSet (s : State) (l : Level) : State :=
  { s with clk := some l, trace := s.trace ++ [.clk l] }

/-- `DatSet(l)` (R10, R53). -/
def State.datSet (s : State) (l : Level) : State :=
  { s with dat := some l, trace := s.trace ++ [.dat l] }

/-- `Delay(1)` (R10): a mark in the trace, no time (R230). -/
def State.delay (s : State) : State := s.emit .dly

/-- `DatSample()` (R10, R54, R58): the environment's next answer; where it has fixed none ahead, a free value
(log 5). -/
def State.datSample (s : State) : Level × State :=
  match s.wire with
  | v :: rest => (v, { s with wire := rest, trace := s.trace ++ [.smp v] })
  | [] =>
    let v := Config.wireLevel s.draws s.trace
    (v, { s with draws := s.draws + 1, trace := s.trace ++ [.smp v] })

/-- `cnt <- draw({0..19})` (R10, R130): a free value within the bound (log 6). -/
def State.drawCnt (s : State) : State :=
  { s with cnt := cntDrawn (Config.drawnCount s.draws s.trace), draws := s.draws + 1 }

/-- `raise Halt` (R10, R190, R196): the one exception. Nothing is saved and control goes nowhere; `mode <- HALT`, `uq`
is empty, all else as it was. -/
def State.raiseHalt (s : State) : State := { s with mode := .halt, uq := [] }

/-- The only return from the exception (R197): reset, which gives every element its value of R37 at any time (R220,
R221), and so abandons a command in progress. The model's own fields are not elements of the sequencer and stay. -/
def State.hardReset (s : State) : State :=
  { State.reset with wire := s.wire, draws := s.draws }

/-- Load the micro-operations of a command (R27). -/
def State.load (s : State) (us : List MicroOp) : State := { s with uq := us }

/-- Perform one micro-operation (R27's table); `none` is *blocked*. `uq` is the caller's. -/
def State.perform (s : State) : MicroOp → Option State
  | .tx b => some (s.txWrite b)
  | .txSh => some (s.txWrite s.sh)
  | .txSmp => some (s.txWrite (sampleReply s.smp))
  | .clk l => some (s.clkSet l)
  | .dat l => some (s.datSet l)
  | .datSh => some (s.datSet (operandLevel s.sh))
  | .dly => some s.delay
  | .smp =>
    let r := s.datSample
    some { r.2 with smp := r.1 }
  | .smpAcc =>
    let r := s.datSample
    some { r.2 with smp := r.1, sh := shiftIn r.1 s.sh }
  | .shr => some { s with sh := shiftRight s.sh }
  | .rxSh =>
    match s.rxRead with
    | none => none
    | some (b, t) => some { t with sh := b }
  | .mode m => some { s with mode := m }
  | .cnt0 => some { s with cnt := 0 }
  | .cntX => some s.drawCnt

/-- The next work of the sequencer (R27 `Step` and `Fetch`): nothing in HALT; with `uq` empty, a fetch, which consumes
the command byte and writes `cmd` before the decode; else the head of `uq`. -/
def State.work (s : State) : Work :=
  match s.mode, s.uq with
  | .halt, _ => .halted
  | _, u :: us =>
    match s.perform u with
    | none => .blocked
    | some t => .micro (t.load us)
  | m, [] =>
    match decode m s.rx, s.rxRead with
    | .ok (i, _), some (b, t) => .command i { t with cmd := b }
    | .error .halted, _ => .halted
    | _, _ => .blocked

/-- The host appends a byte to the serial input (R17 (b), R28), in any mode, in a halt too (R206, D16). -/
def State.hostSend (s : State) (b : Byte) : State := { s with rx := s.rx ++ [b] }

/-- The wire environment fixes the level of a sample to come (R17 (c), R58; log 5). -/
def State.wireAnswer (s : State) (v : Level) : State := { s with wire := s.wire ++ [v] }

end Sys2Proof.Machine
end

