-- ==== Sys2Proof/Machine/ModeController.lean ====
section
/-! DEFINITION. The meanings of the Idle bytes (40_mode_controller.md): what the fetch step does after it has consumed
the byte and written `cmd`, and the micro-operations it loads. -/

namespace Sys2Proof.Machine

/-- A banner as micro-operations: one `uTX` for each byte (R52). -/
def bannerOps (banner : List Byte) : List MicroOp := banner.map .tx

/-- `NUL` (R110): the fetch itself increments `cnt`; on the twentieth the banner is loaded, else `uq` stays. -/
def execNul (s : State) : Host.Outcome State Fault Refusal :=
  let counted : State := { s with cnt := cntNext s.cnt }
  if cntAnnounces counted.cnt then
    .next (counted.load (bannerOps Config.bannerIdle ++ [.cnt0]))
  else
    .next counted

/-- `ENTER` (R111): the banner first, then the mode. -/
def execEnter (s : State) : Host.Outcome State Fault Refusal :=
  .next (s.load (bannerOps Config.bannerRaw ++ [.mode .raw]))

/-- `IGN b` (R112): discarded; nothing but `cmd`, which the fetch wrote. -/
def execIgn (_b : Byte) (s : State) : Host.Outcome State Fault Refusal :=
  .next s

end Sys2Proof.Machine
end

