-- ==== Sys2Proof/Machine/RawControl.lean ====
section
/-! DEFINITION. The meanings of the raw-wire commands that touch no pin (41_rawwire_control.md). -/

namespace Sys2Proof.Machine

/-- The acknowledgment as a micro-operation (R136). -/
def ackOp : MicroOp := .tx Config.ack

/-- `EXIT` (R130): banner, mode, then the counter drawn from 0..19. -/
def execExit (s : State) : Host.Outcome State Fault Refusal :=
  .next (s.load (bannerOps Config.bannerIdle ++ [.mode .idle, .cntX]))

/-- `REANN` (R131): the banner only. -/
def execReann (s : State) : Host.Outcome State Fault Refusal :=
  .next (s.load (bannerOps Config.bannerRaw))

/-- `CFGPER x` (R132): accepted, acknowledged, no effect; `x` is stored nowhere. -/
def execCfgper (_x : BitVec 4) (s : State) : Host.Outcome State Fault Refusal :=
  .next (s.load [ackOp])

/-- `CFGSPD x` (R133): accepted, acknowledged, no effect; holds stay as they are. -/
def execCfgspd (_x : BitVec 4) (s : State) : Host.Outcome State Fault Refusal :=
  .next (s.load [ackOp])

/-- `CFGMODE x` (R134): accepted, acknowledged, no effect; the state element `mode` is not written. -/
def execCfgmode (_x : BitVec 4) (s : State) : Host.Outcome State Fault Refusal :=
  .next (s.load [ackOp])

/-- `ILL b` (R135): takes the fatal fault, in the fetch step itself; the byte stands in `cmd`. -/
def execIll (_b : Byte) (s : State) : Host.Outcome State Fault Refusal :=
  .next s.raiseHalt

end Sys2Proof.Machine
end

