-- ==== Sys2Proof/Machine/RawPins.lean ====
section
/-! DEFINITION. The meanings of the raw-wire commands that drive or sample a line directly (42_rawwire_pins.md). -/

namespace Sys2Proof.Machine

/-- `n` copies of a list of micro-operations, one after the other. -/
def copies : Nat → List MicroOp → List MicroOp
  | 0, _ => []
  | n + 1, us => us ++ copies n us

/-- `PULSE` (R150). -/
def pulseOps : List MicroOp := [.clk true, .dly, .clk false, .dly]

/-- `RDBIT` (R151): the sample stands after the high hold, before the clock is driven low (D13; log 11). -/
def execRdbit (s : State) : Host.Outcome State Fault Refusal :=
  .next (s.load [.clk true, .dly, .smp, .clk false, .dly, .txSmp])

/-- `CLKTICK` (R152). -/
def execClktick (s : State) : Host.Outcome State Fault Refusal :=
  .next (s.load (pulseOps ++ [ackOp]))

/-- `SETCLK l` (R153): no hold follows. -/
def execSetclk (l : Level) (s : State) : Host.Outcome State Fault Refusal :=
  .next (s.load [.clk l, ackOp])

/-- `SETDAT l` (R154): no hold follows. -/
def execSetdat (l : Level) (s : State) : Host.Outcome State Fault Refusal :=
  .next (s.load [.dat l, ackOp])

/-- `BCLK N` (R155): N pulses, one acknowledgment after all of them. -/
def execBclk (n : BitVec 4) (s : State) : Host.Outcome State Fault Refusal :=
  .next (s.load (copies (operandCount n) pulseOps ++ [ackOp]))

end Sys2Proof.Machine
end

