-- ==== Sys2Proof/Machine/Transfer.lean ====
section
/-! DEFINITION. The Bit-Bang Primitives as micro-operations and the meanings of the two byte transfers
(43_bitbang_transfer.md). -/

namespace Sys2Proof.Machine

/-- `WBIT` (R170). Between `CLK(0)` and the next `DAT` lies ONE hold, as R170's list and the 24 holds of R231 have it;
R68 speaks of two holds there (DEDUCED, log 21). -/
def writeBitOps : List MicroOp := [.datSh, .dly, .clk true, .dly, .clk false, .dly, .shr]

/-- `WSEQ` (R170): `writeBit-sequence` of the byte in `sh`. -/
def writeSeqOps : List MicroOp := copies Config.bitsPerByte writeBitOps

/-- `RBIT` (R171). -/
def readBitOps : List MicroOp := [.clk true, .dly, .smpAcc, .clk false, .dly]

/-- `RSEQ` (R171): `readBit-sequence`; DATA is released first. -/
def readSeqOps : List MicroOp := .dat true :: copies Config.bitsPerByte readBitOps

/-- `BYTE` (R173): one data byte read, shifted out, acknowledged. -/
def byteOps : List MicroOp := .rxSh :: (writeSeqOps ++ [ackOp])

/-- `RDBYTE` (R172): the fetch clears the accumulator (D14); the assembled byte is the whole reply. -/
def execRdbyte (s : State) : Host.Outcome State Fault Refusal :=
  let cleared : State := { s with sh := 0x00 }
  .next (cleared.load (readSeqOps ++ [.txSh]))

/-- `BWRITE` (R173): an acknowledgment at once, then N data bytes in lock-step. -/
def execBwrite (n : BitVec 4) (s : State) : Host.Outcome State Fault Refusal :=
  .next (s.load (ackOp :: copies (operandCount n) byteOps))

end Sys2Proof.Machine
end

