-- ==== Sys2Proof/Machine/Dispatch.lean ====
section
/-! DEFINITION. One arm per command: the call of its meaning (30_encoding.md R86, R87). -/

namespace Sys2Proof.Machine

def exec (i : Instr) (s : State) : Host.Outcome State Fault Refusal :=
  match i with
  -- the Idle table (40_mode_controller.md)
  | .nul => Sys2Proof.Machine.execNul s
  | .enter => Sys2Proof.Machine.execEnter s
  | .ign b => Sys2Proof.Machine.execIgn b s
  -- raw-wire, control commands (41_rawwire_control.md)
  | .exit => Sys2Proof.Machine.execExit s
  | .reann => Sys2Proof.Machine.execReann s
  -- raw-wire, byte read (43_bitbang_transfer.md) and pin commands (42_rawwire_pins.md)
  | .rdbyte => Sys2Proof.Machine.execRdbyte s
  | .rdbit => Sys2Proof.Machine.execRdbit s
  | .clktick => Sys2Proof.Machine.execClktick s
  | .setclk l => Sys2Proof.Machine.execSetclk l s
  | .setdat l => Sys2Proof.Machine.execSetdat l s
  -- raw-wire, bulk commands (43_bitbang_transfer.md, 42_rawwire_pins.md)
  | .bwrite n => Sys2Proof.Machine.execBwrite n s
  | .bclk n => Sys2Proof.Machine.execBclk n s
  -- raw-wire, configuration groups without effect, and the illegal bytes (41_rawwire_control.md)
  | .cfgper x => Sys2Proof.Machine.execCfgper x s
  | .cfgspd x => Sys2Proof.Machine.execCfgspd x s
  | .cfgmode x => Sys2Proof.Machine.execCfgmode x s
  | .ill b => Sys2Proof.Machine.execIll b s

end Sys2Proof.Machine
end

