-- ==== Sys2Proof/Machine/Step.lean ====
section
/-! DEFINITION. The step of the sequencer (10_state.md R27) and the placing of a table word. -/

namespace Sys2Proof.Machine

/-- One step (R12, R27). *Halted* is the fault; *blocked* leaves the state as it is (R12: "the state does not change";
log 1); a fetch executes the decoded command; else one micro-operation has been performed. -/
def step (s : State) : Host.Outcome State Fault Refusal :=
  match s.work with
  | .halted => .fault .halted
  | .blocked => .next s
  | .command i t => exec i t
  | .micro t => .next t

/-- `s` with the instruction of a word of spec/opcode_table.json as the next bytes of the serial input, no command in
progress, in the mode whose table holds it (log 12). -/
def State.withFetchWord (s : State) (nbits w : Nat) : State :=
  { s with
    mode := tableMode (tableBytes nbits w)
    uq := []
    rx := tableStream nbits w }

end Sys2Proof.Machine
end

