-- ==== Sys2Proof/Machine/Agents.lean ====
section
/-! DEFINITION. The three agents (00_scope.md R17) and what each may do (60_exceptions.md R206): the sequencer steps, the
host sends a byte or asserts reset, the wire environment fixes a level. -/

namespace Sys2Proof.Machine

/-- One action of one agent. -/
inductive Action where
  /-- the sequencer's step (R27) -/
  | step
  /-- the host appends a byte to the serial input, at any time, in any mode (R28, R206) -/
  | send (b : Byte)
  /-- the wire environment fixes the level of a sample to come (R58) -/
  | answer (v : Level)
  /-- the host asserts reset, at any time (R220) -/
  | reset
deriving DecidableEq, Repr

/-- What an action does. Only the sequencer's step can stop. -/
def act : Action → State → Host.Outcome State Fault Refusal
  | .step, s => step s
  | .send b, s => .next (s.hostSend b)
  | .answer v, s => .next (s.wireAnswer v)
  | .reset, s => .next s.hardReset

/-- A run of the three agents, in the order of the list; it stops at the first fault. -/
def runActions : List Action → State → Host.Outcome State Fault Refusal
  | [], s => .next s
  | a :: as, s =>
    match act a s with
    | .next t => runActions as t
    | .fault r => .fault r
    | .refused r => .refused r

/-- `k` steps of the sequencer with the other agents silent; it stops at the first fault. -/
def runSteps : Nat → State → Host.Outcome State Fault Refusal
  | 0, s => .next s
  | k + 1, s =>
    match step s with
    | .next t => runSteps k t
    | .fault r => .fault r
    | .refused r => .refused r

/-- The bytes the host sends in a run. -/
def sentBytes (as : List Action) : List Byte :=
  as.filterMap fun a => match a with
    | .send b => some b
    | _ => none

/-- *Blocked* (R12): the sequencer needs a byte of the serial input and none is there. -/
def State.blocked (s : State) : Bool := s.work == .blocked

/-- *Halted* (R12). -/
def State.halted (s : State) : Bool := s.mode == .halt

/-- Ready for the next command (R27): not halted and no command in progress. -/
def State.ready (s : State) : Bool := s.mode != .halt && s.uq.isEmpty

end Sys2Proof.Machine
end

