-- ==== Sys2Proof/Machine/Ports.lean ====
section
/-! DEFINITION. The ports of 10_state.md R30: the outputs as views of the state, and one rising edge of `clk_i` as a
function of the inputs. R30's ports are the spec's own choice (D1) and the rules do not depend on them (log 16). So what a
clocked build must remember of a handshake stands beside the sequencer's state, not in it (R20). -/

namespace Sys2Proof.Machine

/-- The micro-operation the sequencer is at; none in HALT and none between commands. -/
def State.headOp (s : State) : Option MicroOp :=
  match s.mode with
  | .halt => none
  | _ => s.uq.head?

/-- `rx_data_i`: the head of `rx`. -/
def State.rxDataI (s : State) : Option Byte := s.rx.head?

/-- `rx_valid_i`: `rx` is not empty. -/
def State.rxValidI (s : State) : Bool := !s.rx.isEmpty

/-- `rx_ready_o`: the sequencer performs `RxRead()`, in a fetch or in `uRXsh` (R51). -/
def State.rxReadyO (s : State) : Bool :=
  match s.mode, s.uq with
  | .halt, _ => false
  | _, [] => true
  | _, u :: _ => u == .rxSh

/-- `tx_data_o`: the byte of the pending `TxWrite`. -/
def State.txDataO (s : State) : Option Byte :=
  match s.headOp with
  | some (.tx b) => some b
  | some .txSh => some s.sh
  | some .txSmp => some (sampleReply s.smp)
  | _ => none

/-- `tx_valid_o`: a `TxWrite` is pending. -/
def State.txValidO (s : State) : Bool := s.txDataO.isSome

/-- `clock_o` equals `clk`. -/
def State.clockO (s : State) : Option Level := s.clk

/-- `data_o` equals `dat`. -/
def State.dataO (s : State) : Option Level := s.dat

/-- The sequencer is at a hold. -/
def State.atHold (s : State) : Bool := s.headOp == some .dly

/-- The step reads `data_i` (R30: in the cycle of `uSMP` or `uSMPacc`). -/
def State.samples (s : State) : Bool := s.headOp == some .smp || s.headOp == some .smpAcc

/-- The inputs at one rising edge of `clk_i`; `rx_data_i` and `rx_valid_i` are given by `rx`. -/
structure PortsIn where
  /-- `rst_i`, active high -/
  rst : Bool
  /-- `tx_ready_i` -/
  txReady : Bool
  /-- `dly_done_i` -/
  dlyDone : Bool
  /-- `data_i` -/
  dataI : Level
deriving DecidableEq, Repr

/-- `data_i` is the answer to a sample taken in this cycle. -/
def State.withDataI (s : State) (v : Level) : State :=
  if s.samples then { s with wire := v :: s.wire } else s

/-- The sequencer behind its ports. -/
structure Clocked where
  seq : State
  /-- The hold the sequencer is at has been asked of the delay provider: the one-cycle pulse is over (R30; log 16). -/
  asked : Bool
deriving DecidableEq, Repr

/-- The clocked block right after reset: no hold asked. -/
def clockedReset (s : State) : Clocked := ⟨s.hardReset, false⟩

/-- `dly_start_o`: 1 in the first cycle of a hold, and only there (R30: "pulsed for one cycle to begin a 1 µs hold"). -/
def Clocked.dlyStartO (c : Clocked) : Bool := c.seq.atHold && !c.asked

/-- A new state of the sequencer, with no hold asked yet; a stop is a stop. -/
def clockedNext : Host.Outcome State Fault Refusal → Host.Outcome Clocked Fault Refusal
  | .next t => .next ⟨t, false⟩
  | .fault r => .fault r
  | .refused r => .refused r

/-- One rising edge of `clk_i`: reset first (R195, R220); the sequencer does not go on before a pending byte is taken or a
hold is over (R30, R52), and a hold that waits has been asked for; else one step. -/
def cycle (p : PortsIn) (c : Clocked) : Host.Outcome Clocked Fault Refusal :=
  if p.rst then .next (clockedReset c.seq)
  else if c.seq.txValidO && !p.txReady then .next c
  else if c.seq.atHold && !p.dlyDone then .next { c with asked := true }
  else clockedNext (step (c.seq.withDataI p.dataI))

end Sys2Proof.Machine
end

