-- ==== Sys2Proof/Machine/Reference.lean ====
section
/-! DEFINITION. The **Pseudocode** part of each command rule (00_scope.md R13), written on the primitives of R10 and not
on micro-operations: what a whole command does after its fetch. R27 lets a model run a whole command as one step if it
produces the same trace; that the loaded micro-operations do so is a statement about `exec` and this file. -/

namespace Sys2Proof.Machine

/-- `repeat n times`. -/
def repeatN : Nat → (State → State) → State → State
  | 0, _, s => s
  | n + 1, f, s => repeatN n f (f s)

/-- `repeat n times` around a read that may block (`none`). -/
def repeatRead : Nat → (State → Option State) → State → Option State
  | 0, _, s => some s
  | n + 1, f, s =>
    match f s with
    | none => none
    | some t => repeatRead n f t

/-- A pulse (R150). -/
def pulse (s : State) : State := (((s.clkSet true).delay).clkSet false).delay

/-- One iteration of `writeBit-sequence` (R170). -/
def writeBit (s : State) : State :=
  let t := (((((s.datSet (operandLevel s.sh)).delay).clkSet true).delay).clkSet false).delay
  { t with sh := shiftRight t.sh }

/-- `writeBit-sequence` of the byte in `sh` (R170). -/
def writeBitSequence (s : State) : State := repeatN Config.bitsPerByte writeBit s

/-- One iteration of `readBit-sequence` (R171). -/
def readBit (s : State) : State :=
  let r := ((s.clkSet true).delay).datSample
  let t : State := { r.2 with smp := r.1, sh := shiftIn r.1 s.sh }
  (t.clkSet false).delay

/-- `readBit-sequence` (R171): the assembled byte is left in `sh`. -/
def readBitSequence (s : State) : State :=
  let released := s.datSet true
  repeatN Config.bitsPerByte readBit { released with sh := 0x00 }

/-- R110. -/
def refNul (s : State) : State :=
  let counted : State := { s with cnt := cntNext s.cnt }
  if cntAnnounces counted.cnt then
    { counted.txString Config.bannerIdle with cnt := 0 }
  else counted

/-- R111. -/
def refEnter (s : State) : State := { s.txString Config.bannerRaw with mode := .raw }

/-- R130. -/
def refExit (s : State) : State :=
  let left : State := { s.txString Config.bannerIdle with mode := .idle }
  left.drawCnt

/-- R131. -/
def refReann (s : State) : State := s.txString Config.bannerRaw

/-- R132 to R134. -/
def refConfigure (s : State) : State := s.txWrite Config.ack

/-- R135. -/
def refIll (s : State) : State := s.raiseHalt

/-- R151. -/
def refRdbit (s : State) : State :=
  let r := ((s.clkSet true).delay).datSample
  let kept : State := { r.2 with smp := r.1 }
  let low := (kept.clkSet false).delay
  low.txWrite (if low.smp then 0x01 else 0x00)

/-- R152. -/
def refClktick (s : State) : State := (pulse s).txWrite Config.ack

/-- R153. -/
def refSetclk (l : Level) (s : State) : State := (s.clkSet l).txWrite Config.ack

/-- R154. -/
def refSetdat (l : Level) (s : State) : State := (s.datSet l).txWrite Config.ack

/-- R155. -/
def refBclk (n : BitVec 4) (s : State) : State :=
  (repeatN (operandCount n) pulse s).txWrite Config.ack

/-- R172. -/
def refRdbyte (s : State) : State :=
  let read := readBitSequence s
  read.txWrite read.sh

/-- One data byte of R173; `none` while the host has not sent it. -/
def refDataByte (s : State) : Option State :=
  match s.rxRead with
  | none => none
  | some (b, t) => some ((writeBitSequence { t with sh := b }).txWrite Config.ack)

/-- R173. -/
def refBwrite (n : BitVec 4) (s : State) : Option State :=
  repeatRead (operandCount n) refDataByte (s.txWrite Config.ack)

/-- The pseudocode of a command, after its fetch; `none` if it blocks for want of data bytes. -/
def reference : Instr → State → Option State
  | .nul, s => some (refNul s)
  | .enter, s => some (refEnter s)
  | .ign _, s => some s
  | .exit, s => some (refExit s)
  | .reann, s => some (refReann s)
  | .rdbyte, s => some (refRdbyte s)
  | .rdbit, s => some (refRdbit s)
  | .clktick, s => some (refClktick s)
  | .setclk l, s => some (refSetclk l s)
  | .setdat l, s => some (refSetdat l s)
  | .bwrite n, s => refBwrite n s
  | .bclk n, s => some (refBclk n s)
  | .cfgper _, s => some (refConfigure s)
  | .cfgspd _, s => some (refConfigure s)
  | .cfgmode _, s => some (refConfigure s)
  | .ill _, s => some (refIll s)

end Sys2Proof.Machine
end

