-- ==== Sys2Proof/Machine/Wire.lean ====
section
/-! DEFINITION. Views of a trace (00_scope.md R11): what the host and the wire environment see, the edges of the two
lines (20_memory.md R55), and the holds (70_reset_and_hazards.md R230, R231). -/

namespace Sys2Proof.Machine

/-- The byte stream the host sees (R11, R28). -/
def txBytes (es : List Event) : List Byte :=
  es.filterMap fun e => match e with
    | .tx b => some b
    | _ => none

/-- The bytes consumed from the host (R51). -/
def rxBytes (es : List Event) : List Byte :=
  es.filterMap fun e => match e with
    | .rx b => some b
    | _ => none

/-- The levels driven on CLOCK, in order (R11). -/
def clkLevels (es : List Event) : List Level :=
  es.filterMap fun e => match e with
    | .clk l => some l
    | _ => none

/-- The levels driven on DATA, in order (R11). -/
def datLevels (es : List Event) : List Level :=
  es.filterMap fun e => match e with
    | .dat l => some l
    | _ => none

/-- The levels sampled from DATA, in order (R11). -/
def smpLevels (es : List Event) : List Level :=
  es.filterMap fun e => match e with
    | .smp v => some v
    | _ => none

/-- The number of holds in a trace (R231). -/
def holds (es : List Event) : Nat := es.count .dly

/-- The time the holds of a trace take, in microseconds (R231, R232). -/
def holdTimeUs (es : List Event) : Nat := holds es * Config.holdUs

/-- The same in ticks of a clocked build (R230): as open as `TICKS_PER_US` is. -/
def holdTicks (es : List Event) : Nat := holdTimeUs es * Config.ticksPerUs

/-- A pin event: `CLK` or `DAT` (R231). -/
def isPin : Event → Bool
  | .clk _ => true
  | .dat _ => true
  | _ => false

/-- What driving a line does to its level as the wire sees it (R55). -/
inductive Edge where
  /-- from low to high -/
  | rising
  /-- from high to low -/
  | falling
  /-- the line had that level already: no edge -/
  | same
  /-- the line had no level before: whether the event is an edge is unspecified -/
  | unspecified
deriving DecidableEq, Repr

/-- The edge of driving a line to `l` that was at `last` (R55). -/
def edgeOf (last : Option Level) (l : Level) : Edge :=
  match last with
  | none => .unspecified
  | some before => if before = l then .same else if l then .rising else .falling

/-- The edges of a line driven to the levels of the list in order, from the level `last` before them (R55). -/
def lineEdges : Option Level → List Level → List Edge
  | _, [] => []
  | last, l :: ls => edgeOf last l :: lineEdges (some l) ls

/-- The edges of the CLOCK line, one for each `CLK` event (R55). -/
def clkEdges (last : Option Level) (es : List Event) : List Edge := lineEdges last (clkLevels es)

/-- The edges of the DATA line, one for each `DAT` event (R55: "The same holds for `DAT`"). -/
def datEdges (last : Option Level) (es : List Event) : List Edge := lineEdges last (datLevels es)

/-- No `DAT` event while CLOCK is high (R68, R170 (d)); `high` says whether it is driven high before the events. -/
def dataStable : Bool → List Event → Bool
  | _, [] => true
  | _, .clk l :: es => dataStable l es
  | high, .dat _ :: es => !high && dataStable high es
  | high, _ :: es => dataStable high es

/-- What an event leaves on CLOCK. -/
def clkAfter (last : Option Level) : Event → Option Level
  | .clk l => some l
  | _ => last

/-- What an event leaves on DATA. -/
def datAfter (last : Option Level) : Event → Option Level
  | .dat l => some l
  | _ => last

/-- What an event leaves as the last sample. -/
def smpAfter (last : Option Level) : Event → Option Level
  | .smp v => some v
  | _ => last

/-- The level last driven on CLOCK, `none` before the first drive (R37, R55). -/
def lastClk (es : List Event) : Option Level := es.foldl clkAfter none

/-- The level last driven on DATA, `none` before the first drive. -/
def lastDat (es : List Event) : Option Level := es.foldl datAfter none

/-- The level last sampled, `none` before the first sample. -/
def lastSmp (es : List Event) : Option Level := es.foldl smpAfter none

end Sys2Proof.Machine
end

