-- ==== Sys2Proof/Safety.lean ====
section
/-! DEFINITION. What the statements call a good state, a legal host script and a right reply (10_state.md R22, R29;
20_memory.md R63; 60_exceptions.md R199). -/

namespace Sys2Proof.Machine

/-- The idle counter is in range (R22, R29 (b)): 0 to 19, or 20 while the banner it causes is being sent. -/
abbrev State.CntInRange (s : State) : Prop :=
  s.cnt.toNat ≤ 19 ∨ (s.cnt = 20 ∧ MicroOp.cnt0 ∈ s.uq)

/-- R29 (a), R22 with R29 (b), the bound of R29 (c), and that no pending micro-operation enters HALT (R21: only
`raise Halt` does). -/
abbrev State.Inv (s : State) : Prop :=
  (s.mode = .halt → s.uq = []) ∧ s.CntInRange ∧ s.uq.length ≤ 929 ∧ MicroOp.mode .halt ∉ s.uq

/-- The latches hold the last level driven since reset, and `smp` the last level sampled (R23, R25, R37). -/
abbrev State.LatchInv (s : State) : Prop :=
  s.clk = lastClk s.trace ∧ s.dat = lastDat s.trace ∧
  (lastSmp s.trace = none ∨ lastSmp s.trace = some s.smp)

/-- `uq` is what remains of the command in `cmd` (R26, R27): a tail of what some well-formed command with that byte
loads from a state with no command in progress. -/
def State.AtCommand (s : State) : Prop :=
  s.uq = [] ∨
  ∃ i s0 t, i.wf = true ∧ encodeByte i = s.cmd ∧ s0.uq = [] ∧ exec i s0 = .next t ∧
    (∃ done, done ++ s.uq = t.uq) ∧ (s.mode = i.table ∨ s.mode = i.modeAfter i.table)

/-- Every line is well-formed and sent in the mode whose table holds its command (R100, R206). -/
def scriptFits : Mode → List HostLine → Bool
  | _, [] => true
  | m, line :: rest =>
    line.wf && line.instr.table == m && scriptFits (line.instr.modeAfter m) rest

/-- The mode a script leaves. -/
def scriptEnd : Mode → List HostLine → Mode
  | m, [] => m
  | m, line :: rest => scriptEnd (line.instr.modeAfter m) rest

/-- The byte whose bit `i` is the level `i` of the list (R56, R171). -/
def assembled (vs : List Level) : Byte :=
  BitVec.ofNat 8 (((List.range 8).map fun i => if vs.getD i false then 2 ^ i else 0).sum)

/-- The reply to a line (the **Reply** part of each command rule), by the idle count at its fetch (R110) and the levels it
sampled (R151, R172). -/
def replyTo (line : HostLine) (cnt : BitVec 5) (samples : List Level) : List Byte :=
  match line.instr with
  | .nul => if cnt = 19 then Config.bannerIdle else []
  | .enter => Config.bannerRaw
  | .ign _ => []
  | .exit => Config.bannerIdle
  | .reann => Config.bannerRaw
  | .rdbyte => [assembled samples]
  | .rdbit => samples.map fun v => if v then 0x01 else 0x00
  | .clktick => [Config.ack]
  | .setclk _ => [Config.ack]
  | .setdat _ => [Config.ack]
  | .bwrite n => List.replicate (operandCount n + 1) Config.ack
  | .bclk _ => [Config.ack]
  | .cfgper _ => [Config.ack]
  | .cfgspd _ => [Config.ack]
  | .cfgmode _ => [Config.ack]
  | .ill _ => []

/-- How often a command samples DATA (R35). -/
def sampleCount : Instr → Nat
  | .rdbyte => 8
  | .rdbit => 1
  | _ => 0

/-- The idle counts a command may leave (R22): one more or 0 after `NUL`, any of 0 to 19 after `EXIT`, else the same. -/
def CountAfter (cnt : BitVec 5) (i : Instr) (next : BitVec 5) : Prop :=
  match i with
  | .nul => next = if cnt = 19 then 0 else cnt + 1
  | .exit => next.toNat ≤ 19
  | _ => next = cnt

/-- The events of one completed command (R63) fetched at the count `cnt`: it begins with the fetch of its command byte,
consumes exactly the line's bytes, samples as often as it must, sends the reply its count and samples ask for, and ends
with a reply byte if it touches a pin. -/
def SegmentOf (cnt : BitVec 5) (line : HostLine) (seg : List Event) : Prop :=
  seg.head? = some (.rx (encodeByte line.instr)) ∧
  rxBytes seg = line.bytes ∧
  (smpLevels seg).length = sampleCount line.instr ∧
  txBytes seg = replyTo line cnt (smpLevels seg) ∧
  (seg.any isPin = true → ∃ b, seg.getLast? = some (.tx b))

/-- The events of a script, one segment for each line in order, from the count `cnt` to the count `last`. -/
def SegmentsOf (last : BitVec 5) : BitVec 5 → List HostLine → List (List Event) → Prop
  | cnt, [], segs => segs = [] ∧ cnt = last
  | _, _ :: _, [] => False
  | cnt, line :: rest, seg :: segs =>
    SegmentOf cnt line seg ∧ ∃ c, CountAfter cnt line.instr c ∧ SegmentsOf last c rest segs

/-- The byte `b`, fetched as a command in the mode of the command `i`, is consumed, written to `cmd`, and `i` is executed
(R27 `Fetch`; the **Encoding** part of each command rule). -/
def RunsOn (i : Instr) (b : Byte) : Prop :=
  ∀ (s : State) (rest : List Byte), s.mode = i.table → s.uq = [] → s.rx = b :: rest →
    step s = exec i { s with rx := rest, cmd := b, trace := s.trace ++ [.rx b] }

/-- The events of a pulse (R150). -/
def pulseEvents : List Event := [.clk true, .dly, .clk false, .dly]

/-- The events of one bit of `writeBit-sequence` (R170). -/
def writeBitEvents (l : Level) : List Event := [.dat l, .dly, .clk true, .dly, .clk false, .dly]

/-- The events of one bit of `readBit-sequence` (R171). -/
def readBitEvents (v : Level) : List Event := [.clk true, .dly, .smp v, .clk false, .dly]

/-- The eight levels of a byte, bit 0 first (R56, R69's `W(b)`). -/
def byteLevels (b : Byte) : List Level := (List.range 8).map b.getLsbD

/-- The events of one data byte of `BWRITE` (R173). -/
def dataByteEvents (b : Byte) : List Event :=
  .rx b :: ((byteLevels b).flatMap writeBitEvents ++ [.tx Config.ack])

end Sys2Proof.Machine
end

