-- ==== Sys2Proof/Certificates/Slice0/Obligations.lean ====
section
/-! DEFINITION. The statements for the provers, about the machine and no program. In each statement about a command,
`exec` is what the fetch step does after it has consumed the command byte, and `runSteps` performs the loaded
micro-operations one step at a time (10_state.md R27); the state reached is given whole, so what it does not name is
unchanged. `RunsOn i b` is the encoding: the byte `b`, fetched in the command's mode, is written to `cmd` and runs `exec i`. -/

open Sys2Proof Sys2Proof.Machine

/-! ## The step, the decoder and the encoder -/

/-- R27 `Fetch`: with no command in progress and a byte there, the step consumes it, writes `cmd`, and executes the
command the mode's table reads; that command is well-formed. -/
def Obligations.StepRunsTheDecodedCommand : Prop :=
  ∀ (s : State) (b : Byte) (rest : List Byte) (i : Instr),
    s.uq = [] → s.rx = b :: rest → decode s.mode (b :: rest) = .ok (i, rest) →
    i.wf = true ∧ i.table = s.mode ∧
    step s = exec i { s with rx := rest, cmd := b, trace := s.trace ++ [.rx b] }

/-- R27's table: what one step does with each micro-operation at the head of `uq`, and `uRXsh` blocked. The sampled
level is the environment's next answer where it has fixed one. -/
def Obligations.StepPerformsEachMicroOperation : Prop :=
  ∀ (s : State) (us : List MicroOp), s.mode ≠ .halt →
    (∀ b, s.uq = .tx b :: us → step s = .next { s with uq := us, trace := s.trace ++ [.tx b] }) ∧
    (s.uq = .txSh :: us → step s = .next { s with uq := us, trace := s.trace ++ [.tx s.sh] }) ∧
    (s.uq = .txSmp :: us →
      step s = .next { s with uq := us, trace := s.trace ++ [.tx (if s.smp then 0x01 else 0x00)] }) ∧
    (∀ l, s.uq = .clk l :: us →
      step s = .next { s with uq := us, clk := some l, trace := s.trace ++ [.clk l] }) ∧
    (∀ l, s.uq = .dat l :: us →
      step s = .next { s with uq := us, dat := some l, trace := s.trace ++ [.dat l] }) ∧
    (s.uq = .datSh :: us →
      step s = .next { s with
        uq := us, dat := some (s.sh.getLsbD 0), trace := s.trace ++ [.dat (s.sh.getLsbD 0)] }) ∧
    (s.uq = .dly :: us → step s = .next { s with uq := us, trace := s.trace ++ [.dly] }) ∧
    (s.uq = .smp :: us → ∃ v,
      (∀ w ws, s.wire = w :: ws → v = w) ∧
      step s = .next { s with
        uq := us, smp := v, wire := s.wire.tail, draws := s.draws + (1 - s.wire.length)
        trace := s.trace ++ [.smp v] }) ∧
    (s.uq = .smpAcc :: us → ∃ v,
      (∀ w ws, s.wire = w :: ws → v = w) ∧
      step s = .next { s with
        uq := us, smp := v, sh := (s.sh >>> 1) ||| (if v then 0x80 else 0x00)
        wire := s.wire.tail, draws := s.draws + (1 - s.wire.length), trace := s.trace ++ [.smp v] }) ∧
    (s.uq = .shr :: us → step s = .next { s with uq := us, sh := s.sh >>> 1 }) ∧
    (∀ b rest, s.uq = .rxSh :: us → s.rx = b :: rest →
      step s = .next { s with uq := us, rx := rest, sh := b, trace := s.trace ++ [.rx b] }) ∧
    (s.uq = .rxSh :: us → s.rx = [] → step s = .next s) ∧
    (∀ m, s.uq = .mode m :: us → step s = .next { s with uq := us, mode := m }) ∧
    (s.uq = .cnt0 :: us → step s = .next { s with uq := us, cnt := 0 }) ∧
    (s.uq = .cntX :: us → ∃ c : BitVec 5, c.toNat ≤ 19 ∧
      step s = .next { s with uq := us, cnt := c, draws := s.draws + 1 })

/-- The host's placing of a table word. The first byte is the word's low one; 0x00 and 0x05 are read as Idle's, every
other byte a legal raw-wire row matches as that command, what is left as `IGN`; data bytes the word does not give are 0x00
(all this is the model's choice, log 12). The very next step is `exec` of that command, in the mode of its table. -/
def Obligations.PlacedWordRunsNext : Prop :=
  ∀ (s : State) (nbits w : Nat), ∃ i b rest,
    b = BitVec.ofNat 8 (w % 2 ^ nbits) ∧
    i = (if b = 0x00 then .nul else if b = 0x05 then .enter
      else if illegalRaw b then .ign b else decodeRaw b) ∧
    decodeTableWord nbits w = some i ∧ i.wf = true ∧
    (s.withFetchWord nbits w).mode = i.table ∧
    (s.withFetchWord nbits w).rx = b :: rest ∧ encodeByte i = b ∧ i.dataBytes ≤ rest.length ∧
    (nbits ≤ 8 → rest = List.replicate i.dataBytes 0x00) ∧
    step (s.withFetchWord nbits w) =
      exec i { s.withFetchWord nbits w with rx := rest, cmd := b, trace := s.trace ++ [.rx b] }

/-- A few command bytes written out bit by bit from R86 and R87, and R85: the same byte under the two tables. -/
def Obligations.WrittenOutBytesDecode : Prop :=
  decode .idle [0b00000000#8] = .ok (.nul, []) ∧ decode .raw [0b00000000#8] = .ok (.exit, []) ∧
  decode .idle [0b00000101#8] = .ok (.enter, []) ∧ decode .raw [0b00000101#8] = .ok (.ill 0x05, []) ∧
  decode .idle [0b00000001#8] = .ok (.ign 0x01, []) ∧ decode .raw [0b00000001#8] = .ok (.reann, []) ∧
  decode .raw [0b00001011#8] = .ok (.setclk true, []) ∧ decode .raw [0b00001100#8] = .ok (.setdat false, []) ∧
  decode .raw [0b00011111#8, 0xA5] = .ok (.bwrite 15, [0xA5]) ∧ decode .raw [0b00100010#8] = .ok (.bclk 2, []) ∧
  decode .raw [0b01100011#8] = .ok (.cfgspd 3, []) ∧ decode .halt [0b00000000#8] = .error .halted

/-- R86, R87, R89: the two decode tables, row by row with their masks, the operands of R83, and the 167 illegal bytes
as those of R89's list. -/
def Obligations.DecodeTablesAreThese : Prop :=
  (∀ (b : Byte) (rest : List Byte),
    decode .idle (b :: rest) = .ok (if b = 0x00 then .nul else if b = 0x05 then .enter else .ign b, rest) ∧
    decode .raw (b :: rest) = .ok
      (if b = 0x00 then .exit
       else if b = 0x01 then .reann
       else if b = 0x06 then .rdbyte
       else if b = 0x07 then .rdbit
       else if b = 0x09 then .clktick
       else if b &&& 0xFE = 0x0A then .setclk (b &&& 0x01 == 0x01)
       else if b &&& 0xFE = 0x0C then .setdat (b &&& 0x01 == 0x01)
       else if b &&& 0xF0 = 0x10 then .bwrite (b.truncate 4)
       else if b &&& 0xF0 = 0x20 then .bclk (b.truncate 4)
       else if b &&& 0xF0 = 0x40 then .cfgper (b.truncate 4)
       else if b &&& 0xF0 = 0x60 then .cfgspd (b.truncate 4)
       else if b &&& 0xF0 = 0x80 then .cfgmode (b.truncate 4)
       else .ill b, rest) ∧
    (decode .raw (b :: rest) = .ok (.ill b, rest) ↔
      b ∈ [0x02, 0x03, 0x04, 0x05, 0x08, 0x0E, 0x0F] ∨ b &&& 0xF0 = 0x30 ∨ b &&& 0xF0 = 0x50 ∨
      b &&& 0xF0 = 0x70 ∨ 0x90 ≤ b)) ∧
  ∀ n : BitVec 4, (Instr.bwrite n).dataBytes = n.toNat + 1

/-- Decode and encode agree: no bit of an encoding is dropped (R81, R86, R87, R100). -/
def Obligations.DecodeUndoesEncode : Prop :=
  ∀ (i : Instr) (rest : List Byte), i.wf = true →
    decode i.table (encode i ++ rest) = .ok (i, rest)

/-- Every byte has exactly one reading in each of the two modes, a well-formed command of that mode's table that encodes
back to it; nothing is read in HALT and nothing without a byte (R85, R86, R87, R89, R91). -/
def Obligations.EveryByteHasOneReading : Prop :=
  ∀ (m : Mode) (b : Byte) (rest : List Byte),
    (m ≠ .halt → ∃ i, decode m (b :: rest) = .ok (i, rest) ∧ i.wf = true ∧ i.table = m ∧ encode i = [b] ∧
      ∀ j, j.wf = true → j.table = m → encode j = [b] → j = i) ∧
    (m ≠ .halt → decode m [] = .error .needByte) ∧ decode .halt (b :: rest) = .error .halted

/-- R88: the twelve match sets are pairwise disjoint and the order in which the rows are tried cannot change the
result. -/
def Obligations.RowOrderCannotMatter : Prop :=
  (∀ b : Byte, (rawRows.filter (·.hits b)).length ≤ 1) ∧
  ∀ rows : List OpRow, rows.Perm rawRows → ∀ b : Byte, decodeWith rows .ill b = decodeRaw b

/-! ## The Idle commands -/

/-- R110: below 19 the count goes up by one and nothing is sent; from 19 the banner is sent and the count is 0. -/
def Obligations.NulCountsAndAnnounces : Prop :=
  RunsOn .nul 0x00 ∧
  ∀ s : State, s.mode = .idle → s.uq = [] →
    (s.cnt.toNat < 19 → exec .nul s = .next { s with cnt := s.cnt + 1 }) ∧
    (s.cnt = 19 → ∃ t, exec .nul s = .next t ∧ t.cnt = 20 ∧
      runSteps 6 t = .next { s with
        cnt := 0
        trace := s.trace ++ [.tx 0x42, .tx 0x42, .tx 0x49, .tx 0x4F, .tx 0x31] })

/-- R111: the banner `RAW1`, then raw-wire mode; `cnt` and the pins stay. -/
def Obligations.EnterAnnouncesAndEntersRaw : Prop :=
  RunsOn .enter 0x05 ∧
  ∀ s : State, s.mode = .idle → ∃ t, exec .enter s = .next t ∧
    (∀ k u, k ≤ 4 → runSteps k t = .next u → u.mode = .idle) ∧
    runSteps 5 t = .next { s with
      mode := .raw, uq := []
      trace := s.trace ++ [.tx 0x52, .tx 0x41, .tx 0x57, .tx 0x31] }

/-- R112: any other Idle byte is consumed and changes `cmd` only. -/
def Obligations.IgnDiscardsTheByte : Prop :=
  ∀ (s : State) (b : Byte) (rest : List Byte), (Instr.ign b).wf = true →
    s.mode = .idle → s.uq = [] → s.rx = b :: rest →
    exec (.ign b) s = .next s ∧
    step s = .next { s with rx := rest, cmd := b, trace := s.trace ++ [.rx b] }

/-- R115 (a): idle bytes without 0x05, with `k` bytes 0x00 among them, from a count `c`: floor((c + k) / 20) banners and
nothing else, and the count ends at (c + k) mod 20. No pin event (R35). -/
def Obligations.IdleCounterLaw : Prop :=
  ∀ (bs rest : List Byte) (s : State),
    s.mode = .idle → s.uq = [] → s.cnt.toNat ≤ 19 → s.rx = bs ++ rest → 0x05 ∉ bs →
    ∃ k t, runSteps k s = .next t ∧ t.mode = .idle ∧ t.uq = [] ∧ t.rx = rest ∧
      t.cnt.toNat = (s.cnt.toNat + bs.count 0x00) % 20 ∧
      txBytes t.trace = txBytes s.trace ++
        (List.replicate ((s.cnt.toNat + bs.count 0x00) / 20) Config.bannerIdle).flatten ∧
      t.trace.filter isPin = s.trace.filter isPin ∧ t.clk = s.clk ∧ t.dat = s.dat

/-! ## The raw-wire control commands -/

/-- R130: the banner `BBIO1`, Idle mode, and a count of 0..19 that no rule fixes; no pin is touched. The count is a free
value (log 6). -/
def Obligations.ExitAnnouncesAndDrawsTheCount : Prop :=
  RunsOn .exit 0x00 ∧
  ∀ s : State, s.mode = .raw → ∃ t c, exec .exit s = .next t ∧ c.toNat ≤ 19 ∧
    runSteps 7 t = .next { s with
      mode := .idle, cnt := c, uq := [], draws := s.draws + 1
      trace := s.trace ++ [.tx 0x42, .tx 0x42, .tx 0x49, .tx 0x4F, .tx 0x31] }

/-- R131: the banner `RAW1` and nothing else. -/
def Obligations.ReannAnnouncesRaw : Prop :=
  RunsOn .reann 0x01 ∧
  ∀ s : State, s.mode = .raw → ∃ t, exec .reann s = .next t ∧
    runSteps 4 t = .next { s with
      uq := [], trace := s.trace ++ [.tx 0x52, .tx 0x41, .tx 0x57, .tx 0x31] }

/-- R132, R133, R134: the three configuration groups are acknowledged and have no effect, for all 16 arguments. -/
def Obligations.ConfigurationHasNoEffect : Prop :=
  (∀ x : BitVec 4, RunsOn (.cfgper x) (0x40 ||| x.setWidth 8) ∧
    RunsOn (.cfgspd x) (0x60 ||| x.setWidth 8) ∧ RunsOn (.cfgmode x) (0x80 ||| x.setWidth 8)) ∧
  ∀ (s : State) (x : BitVec 4), s.mode = .raw →
    ∀ i ∈ [Instr.cfgper x, Instr.cfgspd x, Instr.cfgmode x], ∃ t, exec i s = .next t ∧
      runSteps 1 t = .next { s with uq := [], trace := s.trace ++ [.tx 0x01] }

/-- R135, R196: an illegal byte takes the fatal fault in its fetch step: the byte is consumed, `cmd` and `mode` change,
nothing else, no reply; the sequencer then has no step. -/
def Obligations.IllegalByteHalts : Prop :=
  ∀ (s : State) (b : Byte) (rest : List Byte), (Instr.ill b).wf = true →
    s.mode = .raw → s.uq = [] → s.rx = b :: rest →
    exec (.ill b) s = .next { s with mode := .halt } ∧
    ∃ t, step s = .next t ∧
      t = { s with mode := .halt, rx := rest, cmd := b, trace := s.trace ++ [.rx b] } ∧
      ∀ (later : List Byte) (u : State), step (later.foldl State.hostSend t) ≠ .next u

/-- R190, R197, R221: whatever the host and the wire do short of reset, HALT stays, nothing is observed, bytes pile up
unread (D16), and a step is the fault; reset gives the reset state, not the state before the fault. -/
def Obligations.HaltLastsUntilReset : Prop :=
  ∀ s : State, s.mode = .halt →
    (∀ (as : List Action), .reset ∉ as →
      (Action.step ∈ as → runActions as s = .fault .halted) ∧
      (Action.step ∉ as → ∃ ws, runActions as s = .next { s with
        rx := s.rx ++ sentBytes as, wire := s.wire ++ ws })) ∧
    act .reset s = .next { State.reset with wire := s.wire, draws := s.draws }

/-! ## The raw-wire pin commands -/

/-- R151: the sample stands after the high hold and before the clock goes low, the reply after the low hold; DATA is not
driven. -/
def Obligations.RdbitRepliesTheSample : Prop :=
  RunsOn .rdbit 0x07 ∧
  ∀ s : State, s.mode = .raw → ∃ t v, exec .rdbit s = .next t ∧
    (∀ w ws, s.wire = w :: ws → v = w) ∧
    runSteps 6 t = .next { s with
      uq := [], clk := some false, smp := v, wire := s.wire.tail, draws := s.draws + (1 - s.wire.length)
      trace := s.trace ++ [.clk true, .dly, .smp v, .clk false, .dly, .tx (if v then 0x01 else 0x00)] }

/-- R152: one pulse, then the acknowledgment; the same as `BCLK 1`. -/
def Obligations.ClktickPulsesOnce : Prop :=
  RunsOn .clktick 0x09 ∧
  ∀ s : State, s.mode = .raw → ∃ t, exec .clktick s = .next t ∧ exec (.bclk 0) s = .next t ∧
    runSteps 5 t = .next { s with
      uq := [], clk := some false
      trace := s.trace ++ [.clk true, .dly, .clk false, .dly, .tx 0x01] }

/-- R153: CLOCK is driven to the operand, no hold, one acknowledgment. -/
def Obligations.SetclkDrivesClock : Prop :=
  RunsOn (.setclk false) 0x0A ∧ RunsOn (.setclk true) 0x0B ∧
  ∀ (s : State) (l : Level), s.mode = .raw → ∃ t, exec (.setclk l) s = .next t ∧
    runSteps 2 t = .next { s with
      uq := [], clk := some l, trace := s.trace ++ [.clk l, .tx 0x01] }

/-- R154: DATA is driven to the operand, no hold, one acknowledgment. -/
def Obligations.SetdatDrivesData : Prop :=
  RunsOn (.setdat false) 0x0C ∧ RunsOn (.setdat true) 0x0D ∧
  ∀ (s : State) (l : Level), s.mode = .raw → ∃ t, exec (.setdat l) s = .next t ∧
    runSteps 2 t = .next { s with
      uq := [], dat := some l, trace := s.trace ++ [.dat l, .tx 0x01] }

/-- R155 with R150: N pulses, then one acknowledgment; from a low clock N rising and N falling edges, from a high clock
one rising edge fewer. -/
def Obligations.BclkPulsesNTimes : Prop :=
  (∀ n : BitVec 4, RunsOn (.bclk n) (0x20 ||| n.setWidth 8)) ∧
  ∀ (s : State) (n : BitVec 4), s.mode = .raw →
    ∃ t pulses, exec (.bclk n) s = .next t ∧ t.uq.length = 4 * (n.toNat + 1) + 1 ∧
      pulses = (List.replicate (n.toNat + 1) pulseEvents).flatten ∧
      runSteps t.uq.length t = .next { s with
        uq := [], clk := some false, trace := s.trace ++ (pulses ++ [.tx 0x01]) } ∧
      (s.clk = some false → (clkEdges s.clk pulses).count .rising = n.toNat + 1 ∧
        (clkEdges s.clk pulses).count .falling = n.toNat + 1) ∧
      (s.clk = some true → (clkEdges s.clk pulses).count .rising = n.toNat ∧
        (clkEdges s.clk pulses).count .falling = n.toNat + 1)

/-! ## The byte transfers -/

/-- R171, R172: DATA released first, eight clocked samples, sample `i` in bit `i`, the byte the whole reply. -/
def Obligations.RdbyteAssemblesTheSamples : Prop :=
  RunsOn .rdbyte 0x06 ∧
  ∀ s : State, s.mode = .raw → ∃ t vs, exec .rdbyte s = .next t ∧ t.sh = 0x00 ∧ vs.length = 8 ∧
    (∀ j v, j < 8 → s.wire[j]? = some v → vs[j]? = some v) ∧
    (∀ j, j < 8 → (assembled vs).getLsbD j = vs.getD j false) ∧
    runSteps 42 t = .next { s with
      uq := [], clk := some false, dat := some true, sh := assembled vs, smp := vs.getD 7 false
      wire := s.wire.drop 8, draws := s.draws + (8 - s.wire.length)
      trace := s.trace ++ (.dat true :: (vs.flatMap readBitEvents ++ [.tx (assembled vs)])) }

/-- R170, R173: an acknowledgment, then for each data byte its eight bits on the wire, bit 0 first, and an
acknowledgment; the data bytes may have any value and are not decoded. One hold before each next bit, as R170 lists it
(log 21). -/
def Obligations.BwriteShiftsEachByteOut : Prop :=
  (∀ n : BitVec 4, RunsOn (.bwrite n) (0x10 ||| n.setWidth 8)) ∧
  ∀ (s : State) (n : BitVec 4) (ds rest : List Byte), s.mode = .raw →
    ds.length = n.toNat + 1 → s.rx = ds ++ rest → ∃ t, exec (.bwrite n) s = .next t ∧
      t.uq.length = 1 + 58 * (n.toNat + 1) ∧
      runSteps t.uq.length t = .next { s with
        uq := [], rx := rest, sh := 0x00, clk := some false
        dat := some ((ds.getLastD 0x00).getLsbD 7)
        trace := s.trace ++ (.tx 0x01 :: ds.flatMap dataByteEvents) }

/-- R51, R59, R173 (a), R225 (b): with too few data bytes the sequencer waits in `uRXsh` for as long as the host is
silent, having done all of the bytes it got; the next byte sent, whatever it is, is taken as data. -/
def Obligations.ShortBulkWriteStalls : Prop :=
  ∀ (s : State) (n : BitVec 4) (ds : List Byte), s.mode = .raw →
    ds.length < n.toNat + 1 → s.rx = ds → ∃ t u, exec (.bwrite n) s = .next t ∧
      runSteps (1 + 58 * ds.length) t = .next u ∧
      u.uq = copies (n.toNat + 1 - ds.length) byteOps ∧ u.rx = [] ∧ u.mode = .raw ∧
      u.trace = s.trace ++ (.tx 0x01 :: ds.flatMap dataByteEvents) ∧
      (∀ k, runSteps k u = .next u) ∧
      ∀ b, step (u.hostSend b) = .next { u with
        uq := u.uq.tail, sh := b, trace := u.trace ++ [.rx b] }

/-- R68, R170 (d): in all that a bulk write puts on the wire, no `DAT` event stands between a `CLK(1)` of it and the next
`CLK(0)`. A clock that is high before it (R170 (b)) is not spoken of. -/
def Obligations.BulkWriteKeepsDataStable : Prop :=
  ∀ (s t : State) (n : BitVec 4) (k : Nat) (u : State), s.mode = .raw →
    exec (.bwrite n) s = .next t → k ≤ t.uq.length → runSteps k t = .next u →
    ∃ es, u.trace = s.trace ++ es ∧ dataStable false es = true

/-- R69: the levels a write of `b` drives on DATA are the bits of `b`, bit 0 first, and a read whose samples are those
levels assembles and replies `b`. -/
def Obligations.ReadUndoesWrite : Prop :=
  ∀ (b : Byte) (s r : State) (rest : List Byte), s.mode = .raw → s.rx = b :: rest → r.mode = .raw →
    ∃ t u es, exec (.bwrite 0) s = .next t ∧ runSteps 59 t = .next u ∧ u.trace = s.trace ++ es ∧
      datLevels es = byteLevels b ∧
      ∀ ws, r.wire = datLevels es ++ ws → ∃ t' u', exec .rdbyte r = .next t' ∧
        runSteps 42 t' = .next u' ∧ u'.sh = b ∧ u'.wire = ws ∧
        txBytes u'.trace = txBytes r.trace ++ [b]

/-! ## Every command -/

/-- What the fetch step's `exec` leaves alone, for every command and every state: the streams, the trace, the latches,
`smp`, `cmd`, and each of `mode`, `cnt`, `sh` but for the one command that writes it there (R110, R135, R172). -/
def Obligations.ExecFrame : Prop :=
  ∀ (i : Instr) (s t : State), exec i s = .next t →
    t.rx = s.rx ∧ t.trace = s.trace ∧ t.clk = s.clk ∧ t.dat = s.dat ∧ t.smp = s.smp ∧ t.cmd = s.cmd ∧
    t.wire = s.wire ∧ t.draws = s.draws ∧
    ((∀ b, i ≠ .ill b) → t.mode = s.mode) ∧ (i ≠ .nul → t.cnt = s.cnt) ∧ (i ≠ .rdbyte → t.sh = s.sh)

/-- The micro-operations of every command do what its pseudocode does (R13, R27), whenever the pseudocode does not
block. -/
def Obligations.MicroOperationsMatchPseudocode : Prop :=
  ∀ (i : Instr) (s r : State), s.uq = [] → s.mode = i.table → reference i s = some r →
    ∃ t, exec i s = .next t ∧ runSteps t.uq.length t = .next r

/-- R35: which commands drive CLOCK, drive DATA and sample DATA, and how often they sample. -/
def Obligations.PinCommandsAreThese : Prop :=
  ∀ (i : Instr) (s t : State), s.uq = [] → exec i s = .next t →
    ((∃ l, .clk l ∈ t.uq) ↔
      i = .rdbyte ∨ i = .rdbit ∨ i = .clktick ∨ (∃ l, i = .setclk l) ∨ (∃ n, i = .bwrite n) ∨ ∃ n, i = .bclk n) ∧
    ((MicroOp.datSh ∈ t.uq ∨ ∃ l, .dat l ∈ t.uq) ↔
      i = .rdbyte ∨ (∃ l, i = .setdat l) ∨ ∃ n, i = .bwrite n) ∧
    (i = .rdbyte → ∃ us, t.uq = .dat true :: us ∧ MicroOp.datSh ∉ us ∧ ∀ l, .dat l ∉ us) ∧
    t.uq.count .smpAcc + t.uq.count .smp =
      (if i = .rdbyte then 8 else if i = .rdbit then 1 else 0)

/-- R29 (c), (d): no command loads more than 929 micro-operations, only the longest `BWRITE` so many, and a command
reads as many data bytes as its count says. -/
def Obligations.LoadIsBounded : Prop :=
  ∀ (i : Instr) (s t : State), s.uq = [] → exec i s = .next t →
    t.uq.length ≤ 929 ∧ (t.uq.length = 929 ↔ i = .bwrite 15) ∧ t.uq.count .rxSh = i.dataBytes

/-- R231: the events of each command, counted from its fetch to its end: holds, pin events, samples, bytes sent and
bytes consumed. -/
def Obligations.EventCountsPerCommand : Prop :=
  ∀ (line : HostLine) (s : State) (rest : List Byte), line.wf = true → s.uq = [] →
    s.mode = line.instr.table → s.rx = line.bytes ++ rest → ∃ k u es,
      runSteps k s = .next u ∧ u.uq = [] ∧ u.rx = rest ∧ u.trace = s.trace ++ es ∧
      (holds es, (clkLevels es).length, (datLevels es).length, (smpLevels es).length,
        (txBytes es).length, (rxBytes es).length) =
      match line.instr with
      | .nul => (0, 0, 0, 0, (if s.cnt = 19 then 5 else 0), 1)
      | .enter => (0, 0, 0, 0, 4, 1)
      | .ign _ => (0, 0, 0, 0, 0, 1)
      | .exit => (0, 0, 0, 0, 5, 1)
      | .reann => (0, 0, 0, 0, 4, 1)
      | .rdbyte => (16, 16, 1, 8, 1, 1)
      | .rdbit => (2, 2, 0, 1, 1, 1)
      | .clktick => (2, 2, 0, 0, 1, 1)
      | .setclk _ => (0, 1, 0, 0, 1, 1)
      | .setdat _ => (0, 0, 1, 0, 1, 1)
      | .bwrite n =>
        (24 * (n.toNat + 1), 16 * (n.toNat + 1), 8 * (n.toNat + 1), 0, n.toNat + 2, n.toNat + 2)
      | .bclk n => (2 * (n.toNat + 1), 2 * (n.toNat + 1), 0, 0, 1, 1)
      | .cfgper _ => (0, 0, 0, 0, 1, 1)
      | .cfgspd _ => (0, 0, 0, 0, 1, 1)
      | .cfgmode _ => (0, 0, 0, 0, 1, 1)
      | .ill _ => (0, 0, 0, 0, 0, 1)

/-- R63, R102: a host script whose lines are well-formed and sent in their modes runs to its end, one segment of the
trace for each line in order: a segment begins with the fetch of its command byte, consumes exactly the line's bytes and
sends the reply that the idle count (R110) and the segment's own samples (R151, R172) ask for, the last of it after every
pin event. The count goes on from line to line, to the one the script leaves; what `EXIT` draws is free (log 6). -/
def Obligations.ScriptRepliesComeInOrder : Prop :=
  ∀ (script : List HostLine) (s : State) (rest : List Byte),
    s.uq = [] → s.cnt.toNat ≤ 19 → scriptFits s.mode script = true → s.rx = assemble script ++ rest →
    ∃ k t segments, runSteps k s = .next t ∧ t.uq = [] ∧ t.rx = rest ∧ t.mode = scriptEnd s.mode script ∧
      SegmentsOf t.cnt s.cnt script segments ∧ t.trace = s.trace ++ segments.flatten

/-- R130, R115 (c), and source property S7: after `EXIT`, whatever count it draws, twenty null bytes give exactly one
banner more. -/
def Obligations.HandshakeWorksAfterExit : Prop :=
  ∀ s : State, s.mode = .raw → s.uq = [] → s.rx = 0x00 :: List.replicate 20 0x00 →
    ∃ k t, runSteps k s = .next t ∧ t.mode = .idle ∧ t.uq = [] ∧ t.rx = [] ∧
      txBytes t.trace = txBytes s.trace ++ Config.bannerIdle ++ Config.bannerIdle

/-! ## The whole machine -/

/-- R12: a step has exactly one of three outcomes: halted, blocked with the state unchanged until the host supplies a
byte, or a new state with at most one event. -/
def Obligations.StepHasOneOfThreeOutcomes : Prop :=
  ∀ s : State,
    (s.mode = .halt → s.blocked = false ∧ step s = .fault .halted) ∧
    (s.blocked = true → step s = .next s ∧ s.rx = [] ∧
      ∀ b, (s.hostSend b).blocked = false ∧ ∃ t, step (s.hostSend b) = .next t) ∧
    (s.mode ≠ .halt → s.blocked = false → ∃ t, step s = .next t ∧ t ≠ s ∧
      (t.trace = s.trace ∨ ∃ e, t.trace = s.trace ++ [e]))

/-- R21, R29 (e): `mode` changes only by `uMODE`, silently, or in the fetch of an illegal raw-wire byte. -/
def Obligations.ModeChangesOnlyHere : Prop :=
  ∀ s t : State, step s = .next t → t.mode ≠ s.mode →
    ((∃ us, s.uq = .mode t.mode :: us) ∧ t.trace = s.trace) ∨
    (s.uq = [] ∧ s.mode = .raw ∧ t.mode = .halt ∧ ∃ b rest, s.rx = b :: rest ∧ illegalRaw b = true)

/-- R22: `cnt` changes only by the fetch of a 0x00 byte in IDLE, by `uCNT0` and by `uCNTx`. -/
def Obligations.CounterChangesOnlyHere : Prop :=
  ∀ s t : State, step s = .next t → t.cnt ≠ s.cnt →
    (s.mode = .idle ∧ s.uq = [] ∧ (∃ rest, s.rx = 0x00 :: rest) ∧ t.cnt = s.cnt + 1) ∨
    ((∃ us, s.uq = .cnt0 :: us) ∧ t.cnt = 0) ∨
    ((∃ us, s.uq = .cntX :: us) ∧ t.cnt.toNat ≤ 19)

/-- R22, R29: the invariant holds at reset, with the latches' and the command's. -/
def Obligations.ResetMeetsTheInvariants : Prop :=
  State.reset.Inv ∧ State.reset.LatchInv ∧ State.reset.AtCommand

/-- R22, R29 (a) to (c): every step keeps the invariant. -/
def Obligations.StepKeepsInv : Prop :=
  ∀ s t : State, s.Inv → step s = .next t → t.Inv

/-- The same for runs of all three agents (R17), reset among their actions: between commands the count is 0 to 19
(R29 (b)), and in HALT nothing is pending. -/
def Obligations.AgentsKeepInv : Prop :=
  ∀ (as : List Action) (s t : State), s.Inv → runActions as s = .next t →
    t.Inv ∧ (t.uq = [] → t.cnt.toNat ≤ 19) ∧ (t.mode = .halt → step t = .fault .halted ∧ t.uq = [])

/-- R23, R25, R37: after every action of every agent `clk` and `dat` are the levels last driven since reset, with no
value where none was, and `smp` is the last level sampled. -/
def Obligations.LatchesFollowTheTrace : Prop :=
  ∀ (as : List Action) (s t : State), s.LatchInv → runActions as s = .next t → t.LatchInv

/-- R26, R27: every step keeps `uq` a tail of what the command in `cmd` loads. -/
def Obligations.StepStaysAtItsCommand : Prop :=
  ∀ s t : State, s.AtCommand → step s = .next t → t.AtCommand

/-- R23: neither latch is ever read: other levels in `clk` and `dat` change nothing else in any run. -/
def Obligations.LatchesAreNeverRead : Prop :=
  ∀ (k : Nat) (s t : State) (c d : Option Level), runSteps k s = .next t →
    ∃ c' d', runSteps k { s with clk := c, dat := d } = .next { t with clk := c', dat := d' }

/-- R24, R25, R26, R37: between commands the contents of `sh`, `smp` and `cmd` have no meaning: other contents change
nothing that is observed, nor any other element, in any run. So the values the model names for them at reset (log 3)
cannot show. -/
def Obligations.LeftoverContentsNeverShow : Prop :=
  ∀ (k : Nat) (s t : State) (x z : Byte) (y : Level), s.uq = [] → runSteps k s = .next t →
    ∃ x' y' z', runSteps k { s with sh := x, smp := y, cmd := z } =
      .next { t with sh := x', smp := y', cmd := z' }

/-- R28, R51: no byte of the serial input is lost, reordered or duplicated, and the trace only grows, in every run of
the three agents without a reset. -/
def Obligations.SerialInputIsLossless : Prop :=
  ∀ (as : List Action) (s t : State), .reset ∉ as → runActions as s = .next t →
    rxBytes t.trace ++ t.rx = rxBytes s.trace ++ s.rx ++ sentBytes as ∧
    ∃ es, t.trace = s.trace ++ es

/-- R220, R222: reset, at any time and in any state, gives the values of R37; nothing is transmitted and no line is
driven until the host sends a byte. -/
def Obligations.ResetAbandonsEverything : Prop :=
  ∀ s : State, ∃ t, act .reset s = .next t ∧
    t.mode = .idle ∧ t.cnt = 0 ∧ t.uq = [] ∧ t.clk = none ∧ t.dat = none ∧ t.rx = [] ∧ t.trace = [] ∧
    ∀ k, runSteps k t = .next t

/-- R55: the edges the wire sees follow the latches. What a run records is classed, event by event, from the latches
before it, and the latches after it are what the events to come are classed from; an event is unspecified only where the
line had no level before it. For CLOCK and for DATA. -/
def Obligations.EdgesFollowTheLatches : Prop :=
  ∀ (k : Nat) (s t : State), runSteps k s = .next t → ∃ es, t.trace = s.trace ++ es ∧
    (∀ later, clkEdges s.clk (es ++ later) = clkEdges s.clk es ++ clkEdges t.clk later) ∧
    (∀ later, datEdges s.dat (es ++ later) = datEdges s.dat es ++ datEdges t.dat later) ∧
    (Edge.unspecified ∈ clkEdges s.clk es ↔ s.clk = none ∧ t.clk ≠ none) ∧
    (Edge.unspecified ∈ datEdges s.dat es ↔ s.dat = none ∧ t.dat ≠ none)

/-! ## The ports -/

/-- R30 (the spec's own ports, D1; log 16): at a clock edge reset wins; a pending byte waits for `tx_ready_i`; a hold waits
for `dly_done_i`, and its `dly_start_o` is 1 in its first cycle only; else the sequencer steps, and `data_i` is the answer of
a sample. -/
def Obligations.ClockEdgeFollowsTheHandshakes : Prop :=
  ∀ (c : Clocked) (p : PortsIn),
    (p.rst = true → cycle p c = .next ⟨c.seq.hardReset, false⟩) ∧
    (p.rst = false → c.seq.txValidO = true → p.txReady = false → cycle p c = .next c) ∧
    (p.rst = false → c.seq.atHold = true → p.dlyDone = false →
      c.dlyStartO = !c.asked ∧
      ∃ d, cycle p c = .next d ∧ d.seq = c.seq ∧ d.asked = true ∧ d.dlyStartO = false) ∧
    (p.rst = false → (c.seq.txValidO = true → p.txReady = true) → (c.seq.atHold = true → p.dlyDone = true) →
      cycle p c = clockedNext (step
        (if c.seq.samples then { c.seq with wire := p.dataI :: c.seq.wire } else c.seq)) ∧
      (c.seq.samples = true → ∃ t, cycle p c = .next ⟨t, false⟩ ∧ t.smp = p.dataI ∧ t.uq = c.seq.uq.tail ∧
        t.wire = c.seq.wire ∧ t.draws = c.seq.draws ∧ t.trace = c.seq.trace ++ [.smp p.dataI]))

/-- R30 (log 16): without reset, a byte of the serial input is consumed in a cycle exactly where `rx_valid_i` and
`rx_ready_o` are both 1, and it is `rx_data_i`; a byte is sent exactly where `tx_valid_o` and `tx_ready_i` are both 1, and it
is `tx_data_o`. -/
def Obligations.SerialPortsMoveOneByte : Prop :=
  ∀ (c : Clocked) (p : PortsIn), p.rst = false →
    (c.seq.rxValidI = true → c.seq.rxReadyO = true → ∃ b t,
      c.seq.rxDataI = some b ∧ cycle p c = .next ⟨t, false⟩ ∧
      t.rx = c.seq.rx.tail ∧ t.trace = c.seq.trace ++ [.rx b]) ∧
    (c.seq.txValidO = true → p.txReady = true → ∃ b t,
      c.seq.txDataO = some b ∧ cycle p c = .next ⟨t, false⟩ ∧
      t.rx = c.seq.rx ∧ t.trace = c.seq.trace ++ [.tx b]) ∧
    ∀ d, cycle p c = .next d →
      ((c.seq.rxValidI && c.seq.rxReadyO) = false →
        d.seq.rx = c.seq.rx ∧ rxBytes d.seq.trace = rxBytes c.seq.trace) ∧
      ((c.seq.txValidO && p.txReady) = false → txBytes d.seq.trace = txBytes c.seq.trace)

/-- R22, R29, R30: every clock edge, reset or not, keeps the invariant, and a hold stands asked only while the sequencer
is at one. -/
def Obligations.ClockEdgesKeepInv : Prop :=
  ∀ (c d : Clocked) (p : PortsIn), c.seq.Inv → (c.asked = true → c.seq.atHold = true) →
    cycle p c = .next d → d.seq.Inv ∧ (d.asked = true → d.seq.atHold = true)
end

