-- ==== Sys2Proof/Laws/State.lean ====
section
/-! SUPPORT. The small lemmas of the state: for each operation of Machine/Ops.lean that always answers a state, what each
field holds after it. -/

namespace Sys2Proof.Machine

/-! ### `emit` -/

@[simp] theorem State.emit_mode (s : State) (e : Event) : (s.emit e).mode = s.mode := rfl
@[simp] theorem State.emit_cnt (s : State) (e : Event) : (s.emit e).cnt = s.cnt := rfl
@[simp] theorem State.emit_clk (s : State) (e : Event) : (s.emit e).clk = s.clk := rfl
@[simp] theorem State.emit_dat (s : State) (e : Event) : (s.emit e).dat = s.dat := rfl
@[simp] theorem State.emit_sh (s : State) (e : Event) : (s.emit e).sh = s.sh := rfl
@[simp] theorem State.emit_smp (s : State) (e : Event) : (s.emit e).smp = s.smp := rfl
@[simp] theorem State.emit_cmd (s : State) (e : Event) : (s.emit e).cmd = s.cmd := rfl
@[simp] theorem State.emit_uq (s : State) (e : Event) : (s.emit e).uq = s.uq := rfl
@[simp] theorem State.emit_rx (s : State) (e : Event) : (s.emit e).rx = s.rx := rfl
@[simp] theorem State.emit_trace (s : State) (e : Event) : (s.emit e).trace = s.trace ++ [e] := rfl
@[simp] theorem State.emit_wire (s : State) (e : Event) : (s.emit e).wire = s.wire := rfl
@[simp] theorem State.emit_draws (s : State) (e : Event) : (s.emit e).draws = s.draws := rfl

/-! ### `txWrite` -/

@[simp] theorem State.txWrite_mode (s : State) (b : Byte) : (s.txWrite b).mode = s.mode := rfl
@[simp] theorem State.txWrite_cnt (s : State) (b : Byte) : (s.txWrite b).cnt = s.cnt := rfl
@[simp] theorem State.txWrite_clk (s : State) (b : Byte) : (s.txWrite b).clk = s.clk := rfl
@[simp] theorem State.txWrite_dat (s : State) (b : Byte) : (s.txWrite b).dat = s.dat := rfl
@[simp] theorem State.txWrite_sh (s : State) (b : Byte) : (s.txWrite b).sh = s.sh := rfl
@[simp] theorem State.txWrite_smp (s : State) (b : Byte) : (s.txWrite b).smp = s.smp := rfl
@[simp] theorem State.txWrite_cmd (s : State) (b : Byte) : (s.txWrite b).cmd = s.cmd := rfl
@[simp] theorem State.txWrite_uq (s : State) (b : Byte) : (s.txWrite b).uq = s.uq := rfl
@[simp] theorem State.txWrite_rx (s : State) (b : Byte) : (s.txWrite b).rx = s.rx := rfl
@[simp] theorem State.txWrite_trace (s : State) (b : Byte) : (s.txWrite b).trace = s.trace ++ [.tx b] := rfl
@[simp] theorem State.txWrite_wire (s : State) (b : Byte) : (s.txWrite b).wire = s.wire := rfl
@[simp] theorem State.txWrite_draws (s : State) (b : Byte) : (s.txWrite b).draws = s.draws := rfl

/-! ### `clkSet` -/

@[simp] theorem State.clkSet_mode (s : State) (l : Level) : (s.clkSet l).mode = s.mode := rfl
@[simp] theorem State.clkSet_cnt (s : State) (l : Level) : (s.clkSet l).cnt = s.cnt := rfl
@[simp] theorem State.clkSet_clk (s : State) (l : Level) : (s.clkSet l).clk = some l := rfl
@[simp] theorem State.clkSet_dat (s : State) (l : Level) : (s.clkSet l).dat = s.dat := rfl
@[simp] theorem State.clkSet_sh (s : State) (l : Level) : (s.clkSet l).sh = s.sh := rfl
@[simp] theorem State.clkSet_smp (s : State) (l : Level) : (s.clkSet l).smp = s.smp := rfl
@[simp] theorem State.clkSet_cmd (s : State) (l : Level) : (s.clkSet l).cmd = s.cmd := rfl
@[simp] theorem State.clkSet_uq (s : State) (l : Level) : (s.clkSet l).uq = s.uq := rfl
@[simp] theorem State.clkSet_rx (s : State) (l : Level) : (s.clkSet l).rx = s.rx := rfl
@[simp] theorem State.clkSet_trace (s : State) (l : Level) : (s.clkSet l).trace = s.trace ++ [.clk l] := rfl
@[simp] theorem State.clkSet_wire (s : State) (l : Level) : (s.clkSet l).wire = s.wire := rfl
@[simp] theorem State.clkSet_draws (s : State) (l : Level) : (s.clkSet l).draws = s.draws := rfl

/-! ### `datSet` -/

@[simp] theorem State.datSet_mode (s : State) (l : Level) : (s.datSet l).mode = s.mode := rfl
@[simp] theorem State.datSet_cnt (s : State) (l : Level) : (s.datSet l).cnt = s.cnt := rfl
@[simp] theorem State.datSet_clk (s : State) (l : Level) : (s.datSet l).clk = s.clk := rfl
@[simp] theorem State.datSet_dat (s : State) (l : Level) : (s.datSet l).dat = some l := rfl
@[simp] theorem State.datSet_sh (s : State) (l : Level) : (s.datSet l).sh = s.sh := rfl
@[simp] theorem State.datSet_smp (s : State) (l : Level) : (s.datSet l).smp = s.smp := rfl
@[simp] theorem State.datSet_cmd (s : State) (l : Level) : (s.datSet l).cmd = s.cmd := rfl
@[simp] theorem State.datSet_uq (s : State) (l : Level) : (s.datSet l).uq = s.uq := rfl
@[simp] theorem State.datSet_rx (s : State) (l : Level) : (s.datSet l).rx = s.rx := rfl
@[simp] theorem State.datSet_trace (s : State) (l : Level) : (s.datSet l).trace = s.trace ++ [.dat l] := rfl
@[simp] theorem State.datSet_wire (s : State) (l : Level) : (s.datSet l).wire = s.wire := rfl
@[simp] theorem State.datSet_draws (s : State) (l : Level) : (s.datSet l).draws = s.draws := rfl

/-! ### `delay` -/

@[simp] theorem State.delay_mode (s : State) : (s.delay).mode = s.mode := rfl
@[simp] theorem State.delay_cnt (s : State) : (s.delay).cnt = s.cnt := rfl
@[simp] theorem State.delay_clk (s : State) : (s.delay).clk = s.clk := rfl
@[simp] theorem State.delay_dat (s : State) : (s.delay).dat = s.dat := rfl
@[simp] theorem State.delay_sh (s : State) : (s.delay).sh = s.sh := rfl
@[simp] theorem State.delay_smp (s : State) : (s.delay).smp = s.smp := rfl
@[simp] theorem State.delay_cmd (s : State) : (s.delay).cmd = s.cmd := rfl
@[simp] theorem State.delay_uq (s : State) : (s.delay).uq = s.uq := rfl
@[simp] theorem State.delay_rx (s : State) : (s.delay).rx = s.rx := rfl
@[simp] theorem State.delay_trace (s : State) : (s.delay).trace = s.trace ++ [.dly] := rfl
@[simp] theorem State.delay_wire (s : State) : (s.delay).wire = s.wire := rfl
@[simp] theorem State.delay_draws (s : State) : (s.delay).draws = s.draws := rfl

/-! ### `drawCnt` -/

@[simp] theorem State.drawCnt_mode (s : State) : (s.drawCnt).mode = s.mode := rfl
@[simp] theorem State.drawCnt_cnt (s : State) : (s.drawCnt).cnt = cntDrawn (Config.drawnCount s.draws s.trace) := rfl
@[simp] theorem State.drawCnt_clk (s : State) : (s.drawCnt).clk = s.clk := rfl
@[simp] theorem State.drawCnt_dat (s : State) : (s.drawCnt).dat = s.dat := rfl
@[simp] theorem State.drawCnt_sh (s : State) : (s.drawCnt).sh = s.sh := rfl
@[simp] theorem State.drawCnt_smp (s : State) : (s.drawCnt).smp = s.smp := rfl
@[simp] theorem State.drawCnt_cmd (s : State) : (s.drawCnt).cmd = s.cmd := rfl
@[simp] theorem State.drawCnt_uq (s : State) : (s.drawCnt).uq = s.uq := rfl
@[simp] theorem State.drawCnt_rx (s : State) : (s.drawCnt).rx = s.rx := rfl
@[simp] theorem State.drawCnt_trace (s : State) : (s.drawCnt).trace = s.trace := rfl
@[simp] theorem State.drawCnt_wire (s : State) : (s.drawCnt).wire = s.wire := rfl
@[simp] theorem State.drawCnt_draws (s : State) : (s.drawCnt).draws = s.draws + 1 := rfl

/-! ### `raiseHalt` -/

@[simp] theorem State.raiseHalt_mode (s : State) : (s.raiseHalt).mode = .halt := rfl
@[simp] theorem State.raiseHalt_cnt (s : State) : (s.raiseHalt).cnt = s.cnt := rfl
@[simp] theorem State.raiseHalt_clk (s : State) : (s.raiseHalt).clk = s.clk := rfl
@[simp] theorem State.raiseHalt_dat (s : State) : (s.raiseHalt).dat = s.dat := rfl
@[simp] theorem State.raiseHalt_sh (s : State) : (s.raiseHalt).sh = s.sh := rfl
@[simp] theorem State.raiseHalt_smp (s : State) : (s.raiseHalt).smp = s.smp := rfl
@[simp] theorem State.raiseHalt_cmd (s : State) : (s.raiseHalt).cmd = s.cmd := rfl
@[simp] theorem State.raiseHalt_uq (s : State) : (s.raiseHalt).uq = [] := rfl
@[simp] theorem State.raiseHalt_rx (s : State) : (s.raiseHalt).rx = s.rx := rfl
@[simp] theorem State.raiseHalt_trace (s : State) : (s.raiseHalt).trace = s.trace := rfl
@[simp] theorem State.raiseHalt_wire (s : State) : (s.raiseHalt).wire = s.wire := rfl
@[simp] theorem State.raiseHalt_draws (s : State) : (s.raiseHalt).draws = s.draws := rfl

/-! ### `hardReset` -/

@[simp] theorem State.hardReset_mode (s : State) : (s.hardReset).mode = .idle := rfl
@[simp] theorem State.hardReset_cnt (s : State) : (s.hardReset).cnt = 0 := rfl
@[simp] theorem State.hardReset_clk (s : State) : (s.hardReset).clk = none := rfl
@[simp] theorem State.hardReset_dat (s : State) : (s.hardReset).dat = none := rfl
@[simp] theorem State.hardReset_sh (s : State) : (s.hardReset).sh = 0x00 := rfl
@[simp] theorem State.hardReset_smp (s : State) : (s.hardReset).smp = false := rfl
@[simp] theorem State.hardReset_cmd (s : State) : (s.hardReset).cmd = 0x00 := rfl
@[simp] theorem State.hardReset_uq (s : State) : (s.hardReset).uq = [] := rfl
@[simp] theorem State.hardReset_rx (s : State) : (s.hardReset).rx = [] := rfl
@[simp] theorem State.hardReset_trace (s : State) : (s.hardReset).trace = [] := rfl
@[simp] theorem State.hardReset_wire (s : State) : (s.hardReset).wire = s.wire := rfl
@[simp] theorem State.hardReset_draws (s : State) : (s.hardReset).draws = s.draws := rfl

/-! ### `load` -/

@[simp] theorem State.load_mode (s : State) (us : List MicroOp) : (s.load us).mode = s.mode := rfl
@[simp] theorem State.load_cnt (s : State) (us : List MicroOp) : (s.load us).cnt = s.cnt := rfl
@[simp] theorem State.load_clk (s : State) (us : List MicroOp) : (s.load us).clk = s.clk := rfl
@[simp] theorem State.load_dat (s : State) (us : List MicroOp) : (s.load us).dat = s.dat := rfl
@[simp] theorem State.load_sh (s : State) (us : List MicroOp) : (s.load us).sh = s.sh := rfl
@[simp] theorem State.load_smp (s : State) (us : List MicroOp) : (s.load us).smp = s.smp := rfl
@[simp] theorem State.load_cmd (s : State) (us : List MicroOp) : (s.load us).cmd = s.cmd := rfl
@[simp] theorem State.load_uq (s : State) (us : List MicroOp) : (s.load us).uq = us := rfl
@[simp] theorem State.load_rx (s : State) (us : List MicroOp) : (s.load us).rx = s.rx := rfl
@[simp] theorem State.load_trace (s : State) (us : List MicroOp) : (s.load us).trace = s.trace := rfl
@[simp] theorem State.load_wire (s : State) (us : List MicroOp) : (s.load us).wire = s.wire := rfl
@[simp] theorem State.load_draws (s : State) (us : List MicroOp) : (s.load us).draws = s.draws := rfl

/-! ### `hostSend` -/

@[simp] theorem State.hostSend_mode (s : State) (b : Byte) : (s.hostSend b).mode = s.mode := rfl
@[simp] theorem State.hostSend_cnt (s : State) (b : Byte) : (s.hostSend b).cnt = s.cnt := rfl
@[simp] theorem State.hostSend_clk (s : State) (b : Byte) : (s.hostSend b).clk = s.clk := rfl
@[simp] theorem State.hostSend_dat (s : State) (b : Byte) : (s.hostSend b).dat = s.dat := rfl
@[simp] theorem State.hostSend_sh (s : State) (b : Byte) : (s.hostSend b).sh = s.sh := rfl
@[simp] theorem State.hostSend_smp (s : State) (b : Byte) : (s.hostSend b).smp = s.smp := rfl
@[simp] theorem State.hostSend_cmd (s : State) (b : Byte) : (s.hostSend b).cmd = s.cmd := rfl
@[simp] theorem State.hostSend_uq (s : State) (b : Byte) : (s.hostSend b).uq = s.uq := rfl
@[simp] theorem State.hostSend_rx (s : State) (b : Byte) : (s.hostSend b).rx = s.rx ++ [b] := rfl
@[simp] theorem State.hostSend_trace (s : State) (b : Byte) : (s.hostSend b).trace = s.trace := rfl
@[simp] theorem State.hostSend_wire (s : State) (b : Byte) : (s.hostSend b).wire = s.wire := rfl
@[simp] theorem State.hostSend_draws (s : State) (b : Byte) : (s.hostSend b).draws = s.draws := rfl

/-! ### `wireAnswer` -/

@[simp] theorem State.wireAnswer_mode (s : State) (v : Level) : (s.wireAnswer v).mode = s.mode := rfl
@[simp] theorem State.wireAnswer_cnt (s : State) (v : Level) : (s.wireAnswer v).cnt = s.cnt := rfl
@[simp] theorem State.wireAnswer_clk (s : State) (v : Level) : (s.wireAnswer v).clk = s.clk := rfl
@[simp] theorem State.wireAnswer_dat (s : State) (v : Level) : (s.wireAnswer v).dat = s.dat := rfl
@[simp] theorem State.wireAnswer_sh (s : State) (v : Level) : (s.wireAnswer v).sh = s.sh := rfl
@[simp] theorem State.wireAnswer_smp (s : State) (v : Level) : (s.wireAnswer v).smp = s.smp := rfl
@[simp] theorem State.wireAnswer_cmd (s : State) (v : Level) : (s.wireAnswer v).cmd = s.cmd := rfl
@[simp] theorem State.wireAnswer_uq (s : State) (v : Level) : (s.wireAnswer v).uq = s.uq := rfl
@[simp] theorem State.wireAnswer_rx (s : State) (v : Level) : (s.wireAnswer v).rx = s.rx := rfl
@[simp] theorem State.wireAnswer_trace (s : State) (v : Level) : (s.wireAnswer v).trace = s.trace := rfl
@[simp] theorem State.wireAnswer_wire (s : State) (v : Level) : (s.wireAnswer v).wire = s.wire ++ [v] := rfl
@[simp] theorem State.wireAnswer_draws (s : State) (v : Level) : (s.wireAnswer v).draws = s.draws := rfl

end Sys2Proof.Machine
end

