-- ==== Sys2Proof/Laws/Ops.lean ====
section
/-! SUPPORT. What each shared operation can do, said once: reads, samples, micro-operations, and the choice of the next
work (10_state.md R27). -/

namespace Sys2Proof.Machine

/-- A read gives the oldest byte and leaves the rest. -/
theorem State.rxRead_cons (s : State) (b : Byte) (rest : List Byte) (h : s.rx = b :: rest) :
    s.rxRead = some (b, { s with rx := rest, trace := s.trace ++ [.rx b] }) := by
  simp [State.rxRead, h]

/-- A read without a byte blocks. -/
theorem State.rxRead_nil (s : State) (h : s.rx = []) : s.rxRead = none := by
  simp [State.rxRead, h]

/-- A sample changes the trace and the model's own fields only, and is the environment's next answer where there is
one. -/
theorem State.datSample_spec (s : State) :
    ∃ v, (∀ w ws, s.wire = w :: ws → v = w) ∧
      s.datSample = (v, { s with
        wire := s.wire.tail, draws := s.draws + (1 - s.wire.length), trace := s.trace ++ [.smp v] }) := by
  obtain ⟨mode, cnt, clk, dat, sh, smp, cmd, uq, rx, trace, wire, draws⟩ := s
  cases wire with
  | nil => exact ⟨_, by simp, rfl⟩
  | cons w ws => exact ⟨w, by simp, by simp [State.datSample]⟩

/-- A banner is its bytes, in order. -/
theorem State.txString_eq (bs : List Byte) (s : State) :
    s.txString bs = { s with trace := s.trace ++ bs.map .tx } := by
  induction bs generalizing s with
  | nil => simp [State.txString]
  | cons b bs ih => simp [State.txString, ih, State.txWrite, State.emit]

/-- A drawn count is in range (R130). -/
theorem cntDrawn_le (c : Fin 20) : (cntDrawn c).toNat ≤ 19 := by
  have := c.isLt
  simp only [cntDrawn, BitVec.toNat_ofNat]
  omega

/-- Only `uRXsh` can block, and only without a byte. -/
theorem State.perform_eq_none (s : State) (u : MicroOp) :
    s.perform u = none ↔ u = .rxSh ∧ s.rx = [] := by
  cases u <;> simp [State.perform]
  cases h : s.rx <;> simp [State.rxRead, h]

/-- Everything a micro-operation can do (R27's table). -/
theorem State.perform_cases (s t : State) (u : MicroOp) (h : s.perform u = some t) :
    (∃ b, u = .tx b ∧ t = { s with trace := s.trace ++ [.tx b] }) ∨
    (u = .txSh ∧ t = { s with trace := s.trace ++ [.tx s.sh] }) ∨
    (u = .txSmp ∧ t = { s with trace := s.trace ++ [.tx (sampleReply s.smp)] }) ∨
    (∃ l, u = .clk l ∧ t = { s with clk := some l, trace := s.trace ++ [.clk l] }) ∨
    (∃ l, u = .dat l ∧ t = { s with dat := some l, trace := s.trace ++ [.dat l] }) ∨
    (u = .datSh ∧ t = { s with
      dat := some (operandLevel s.sh), trace := s.trace ++ [.dat (operandLevel s.sh)] }) ∨
    (u = .dly ∧ t = { s with trace := s.trace ++ [.dly] }) ∨
    (∃ v, u = .smp ∧ (∀ w ws, s.wire = w :: ws → v = w) ∧ t = { s with
      smp := v, wire := s.wire.tail, draws := s.draws + (1 - s.wire.length)
      trace := s.trace ++ [.smp v] }) ∨
    (∃ v, u = .smpAcc ∧ (∀ w ws, s.wire = w :: ws → v = w) ∧ t = { s with
      smp := v, sh := shiftIn v s.sh, wire := s.wire.tail, draws := s.draws + (1 - s.wire.length)
      trace := s.trace ++ [.smp v] }) ∨
    (u = .shr ∧ t = { s with sh := shiftRight s.sh }) ∨
    (∃ b rest, u = .rxSh ∧ s.rx = b :: rest ∧ t = { s with
      rx := rest, sh := b, trace := s.trace ++ [.rx b] }) ∨
    (∃ m, u = .mode m ∧ t = { s with mode := m }) ∨
    (u = .cnt0 ∧ t = { s with cnt := 0 }) ∨
    (∃ c : BitVec 5, u = .cntX ∧ c.toNat ≤ 19 ∧ t = { s with cnt := c, draws := s.draws + 1 }) := by
  cases u with
  | smp =>
    obtain ⟨v, hv, he⟩ := s.datSample_spec
    simp only [State.perform, he, Option.some.injEq] at h
    simp only [← h]
    simpa using ⟨hv false, hv true⟩
  | smpAcc =>
    obtain ⟨v, hv, he⟩ := s.datSample_spec
    simp only [State.perform, he, Option.some.injEq] at h
    simp only [← h]
    simpa using ⟨hv false, hv true⟩
  | rxSh =>
    cases hr : s.rx with
    | nil => simp [State.perform, s.rxRead_nil hr] at h
    | cons b rest =>
      simp only [State.perform, s.rxRead_cons b rest hr, Option.some.injEq] at h
      simp [← h]
  | cntX =>
    simp only [State.perform, Option.some.injEq] at h
    have := cntDrawn_le (Config.drawnCount s.draws s.trace)
    refine .inr (.inr (.inr (.inr (.inr (.inr (.inr (.inr (.inr (.inr (.inr (.inr (.inr ?_))))))))))))
    exact ⟨_, rfl, this, h.symm⟩
  | _ =>
    simp only [State.perform, Option.some.injEq] at h
    simp [← h, State.txWrite, State.emit, State.clkSet, State.datSet, State.delay]

/-- A micro-operation leaves `uq` and `cmd` to the step. -/
theorem State.perform_frame (s t : State) (u : MicroOp) (h : s.perform u = some t) :
    t.uq = s.uq ∧ t.cmd = s.cmd := by
  obtain ⟨_, _, rfl⟩ | ⟨_, rfl⟩ | ⟨_, rfl⟩ | ⟨_, _, rfl⟩ | ⟨_, _, rfl⟩ | ⟨_, rfl⟩ | ⟨_, rfl⟩ |
    ⟨_, _, _, rfl⟩ | ⟨_, _, _, rfl⟩ | ⟨_, rfl⟩ | ⟨_, _, _, _, rfl⟩ | ⟨_, _, rfl⟩ | ⟨_, rfl⟩ |
    ⟨_, _, _, rfl⟩ := s.perform_cases t u h <;> exact ⟨rfl, rfl⟩

/-- In HALT there is no work. -/
theorem State.work_halt (s : State) (h : s.mode = .halt) : s.work = .halted := by
  simp [State.work, h]

/-- A pending micro-operation that does not block is performed. -/
theorem State.work_micro (s t : State) (u : MicroOp) (us : List MicroOp) (hm : s.mode ≠ .halt)
    (hq : s.uq = u :: us) (hp : s.perform u = some t) : s.work = .micro (t.load us) := by
  cases h : s.mode <;> simp_all [State.work]

/-- A data byte that is not there blocks. -/
theorem State.work_blocked (s : State) (us : List MicroOp) (hm : s.mode ≠ .halt)
    (hq : s.uq = .rxSh :: us) (hr : s.rx = []) : s.work = .blocked := by
  have hp : s.perform .rxSh = none := (s.perform_eq_none .rxSh).2 ⟨rfl, hr⟩
  cases h : s.mode <;> simp_all [State.work]

/-- A command byte that is not there blocks. -/
theorem State.work_wait (s : State) (hm : s.mode ≠ .halt) (hq : s.uq = []) (hr : s.rx = []) :
    s.work = .blocked := by
  cases h : s.mode <;> simp_all [State.work, decode]

/-- The byte a mode's table reads. -/
def commandOf (m : Mode) (b : Byte) : Instr :=
  match m with
  | .raw => decodeRaw b
  | _ => decodeIdle b

theorem decode_cons (m : Mode) (b : Byte) (rest : List Byte) (hm : m ≠ .halt) :
    decode m (b :: rest) = .ok (commandOf m b, rest) := by
  cases m <;> simp_all [decode, commandOf]

/-- The state in which a fetched command is executed (R27 `Fetch`). -/
def State.fetched (s : State) (b : Byte) (rest : List Byte) : State :=
  { s with rx := rest, cmd := b, trace := s.trace ++ [.rx b] }

/-- A command byte that is there is fetched. -/
theorem State.work_command (s : State) (b : Byte) (rest : List Byte) (hm : s.mode ≠ .halt)
    (hq : s.uq = []) (hr : s.rx = b :: rest) :
    s.work = .command (commandOf s.mode b) (s.fetched b rest) := by
  have hd := decode_cons s.mode b rest hm
  cases h : s.mode <;>
    simp_all [State.work, s.rxRead_cons b rest hr, State.fetched]

/-- Everything the sequencer can do next. -/
theorem State.work_cases (s : State) :
    (s.mode = .halt ∧ s.work = .halted) ∨
    (s.mode ≠ .halt ∧ s.rx = [] ∧ (s.uq = [] ∨ ∃ us, s.uq = .rxSh :: us) ∧ s.work = .blocked) ∨
    (s.mode ≠ .halt ∧ s.uq = [] ∧ ∃ b rest, s.rx = b :: rest ∧
      s.work = .command (commandOf s.mode b) (s.fetched b rest)) ∨
    (s.mode ≠ .halt ∧ ∃ u us t, s.uq = u :: us ∧ s.perform u = some t ∧ s.work = .micro (t.load us)) := by
  by_cases hm : s.mode = .halt
  · exact .inl ⟨hm, s.work_halt hm⟩
  cases hq : s.uq with
  | nil =>
    cases hr : s.rx with
    | nil => exact .inr (.inl ⟨hm, rfl, .inl rfl, s.work_wait hm hq hr⟩)
    | cons b rest => exact .inr (.inr (.inl ⟨hm, rfl, b, rest, rfl, s.work_command b rest hm hq hr⟩))
  | cons u us =>
    cases hp : s.perform u with
    | none =>
      obtain ⟨rfl, hr⟩ := (s.perform_eq_none u).1 hp
      exact .inr (.inl ⟨hm, hr, .inr ⟨us, rfl⟩, s.work_blocked us hm hq hr⟩)
    | some t => exact .inr (.inr (.inr ⟨hm, u, us, t, rfl, hp, s.work_micro t u us hm hq hp⟩))

end Sys2Proof.Machine
end

