-- ==== Sys2Proof/Laws/PerInstr.lean ====
section
/-! SUPPORT. What holds of every command as syntax, one lemma per constructor. -/

namespace Sys2Proof.Laws.Length

/-- R80, R84: one command byte, at most 16 data bytes behind it, and none but for `BWRITE`; and a command belongs to
one of the two tables, never to HALT (R85). -/
def Statement (i : Instr) : Prop :=
  (encode i).length = 1 ∧ i.dataBytes ≤ Config.countMax ∧
  (i.dataBytes ≠ 0 → ∃ n, i = .bwrite n) ∧ i.table ≠ .halt

theorem nul : Statement .nul := by simp [Statement, encode, Instr.dataBytes, Instr.table]
theorem enter : Statement .enter := by simp [Statement, encode, Instr.dataBytes, Instr.table]
theorem ign (b : Byte) : Statement (.ign b) := by simp [Statement, encode, Instr.dataBytes, Instr.table]
theorem exit : Statement .exit := by simp [Statement, encode, Instr.dataBytes, Instr.table]
theorem reann : Statement .reann := by simp [Statement, encode, Instr.dataBytes, Instr.table]
theorem rdbyte : Statement .rdbyte := by simp [Statement, encode, Instr.dataBytes, Instr.table]
theorem rdbit : Statement .rdbit := by simp [Statement, encode, Instr.dataBytes, Instr.table]
theorem clktick : Statement .clktick := by simp [Statement, encode, Instr.dataBytes, Instr.table]
theorem setclk (l : Level) : Statement (.setclk l) := by simp [Statement, encode, Instr.dataBytes, Instr.table]
theorem setdat (l : Level) : Statement (.setdat l) := by simp [Statement, encode, Instr.dataBytes, Instr.table]
theorem bwrite (n : BitVec 4) : Statement (.bwrite n) := by
  have := n.isLt
  simp only [Statement, encode, Instr.dataBytes, Instr.table, Machine.operandCount, Config.countMax]
  exact ⟨rfl, by omega, fun _ => ⟨n, rfl⟩, by simp⟩
theorem bclk (n : BitVec 4) : Statement (.bclk n) := by simp [Statement, encode, Instr.dataBytes, Instr.table]
theorem cfgper (x : BitVec 4) : Statement (.cfgper x) := by simp [Statement, encode, Instr.dataBytes, Instr.table]
theorem cfgspd (x : BitVec 4) : Statement (.cfgspd x) := by simp [Statement, encode, Instr.dataBytes, Instr.table]
theorem cfgmode (x : BitVec 4) : Statement (.cfgmode x) := by simp [Statement, encode, Instr.dataBytes, Instr.table]
theorem ill (b : Byte) : Statement (.ill b) := by simp [Statement, encode, Instr.dataBytes, Instr.table]

end Sys2Proof.Laws.Length
end

