-- ==== Sys2Proof/Laws/Step.lean ====
section
/-! SUPPORT. What a step can do, said once, and how runs are put together. -/

namespace Sys2Proof.Machine

theorem step_halted (s : State) (h : s.mode = .halt) : step s = .fault .halted := by
  simp [step, s.work_halt h]

theorem step_wait (s : State) (hm : s.mode ≠ .halt) (hq : s.uq = []) (hr : s.rx = []) :
    step s = .next s := by
  simp [step, s.work_wait hm hq hr]

theorem step_stalled (s : State) (us : List MicroOp) (hm : s.mode ≠ .halt) (hq : s.uq = .rxSh :: us)
    (hr : s.rx = []) : step s = .next s := by
  simp [step, s.work_blocked us hm hq hr]

theorem step_fetch (s : State) (b : Byte) (rest : List Byte) (hm : s.mode ≠ .halt) (hq : s.uq = [])
    (hr : s.rx = b :: rest) : step s = exec (commandOf s.mode b) (s.fetched b rest) := by
  simp [step, s.work_command b rest hm hq hr]

theorem step_micro (s t : State) (u : MicroOp) (us : List MicroOp) (hm : s.mode ≠ .halt)
    (hq : s.uq = u :: us) (hp : s.perform u = some t) : step s = .next (t.load us) := by
  simp [step, s.work_micro t u us hm hq hp]

/-- `exec` always answers a next state. -/
theorem exec_next (i : Instr) (s : State) : ∃ t, exec i s = .next t := by
  cases i <;> try exact ⟨_, rfl⟩
  simp only [exec, execNul]
  split <;> exact ⟨_, rfl⟩

/-- Everything a step that answers a next state can have done: waited, fetched and executed, or performed. -/
theorem step_cases (s t : State) (h : step s = .next t) :
    s.mode ≠ .halt ∧
    ((s.rx = [] ∧ (s.uq = [] ∨ ∃ us, s.uq = .rxSh :: us) ∧ t = s) ∨
     (s.uq = [] ∧ ∃ b rest, s.rx = b :: rest ∧
       exec (commandOf s.mode b) (s.fetched b rest) = .next t) ∨
     (∃ u us r, s.uq = u :: us ∧ s.perform u = some r ∧ t = r.load us)) := by
  obtain ⟨hm, hw⟩ | ⟨hm, hr, hq, hw⟩ | ⟨hm, hq, b, rest, hr, hw⟩ | ⟨hm, u, us, r, hq, hp, hw⟩ :=
    s.work_cases <;> simp only [step, hw] at h
  · cases h
  · cases h; exact ⟨hm, .inl ⟨hr, hq, rfl⟩⟩
  · exact ⟨hm, .inr (.inl ⟨hq, b, rest, hr, h⟩)⟩
  · cases h; exact ⟨hm, .inr (.inr ⟨u, us, r, hq, hp, rfl⟩)⟩

/-- What `exec` leaves alone, and what it writes where (R110, R135, R172). -/
theorem exec_cases (i : Instr) (s t : State) (h : exec i s = .next t) :
    (i = .nul ∧ t = { s with
      cnt := cntNext s.cnt
      uq := if cntAnnounces (cntNext s.cnt) then bannerOps Config.bannerIdle ++ [.cnt0] else s.uq }) ∨
    (i = .rdbyte ∧ t = { s with sh := 0x00, uq := readSeqOps ++ [.txSh] }) ∨
    (∃ b, i = .ill b ∧ t = s.raiseHalt) ∨
    (∃ b, i = .ign b ∧ t = s) ∨
    ((i ≠ .nul ∧ i ≠ .rdbyte ∧ (∀ b, i ≠ .ill b) ∧ ∀ b, i ≠ .ign b) ∧ ∃ us, t = s.load us) := by
  cases i with
  | nul =>
    simp only [exec, execNul] at h
    split at h <;> cases h <;> simp_all [State.load]
  | rdbyte => cases h; exact .inr (.inl ⟨rfl, rfl⟩)
  | ill b => cases h; exact .inr (.inr (.inl ⟨b, rfl, rfl⟩))
  | ign b => cases h; exact .inr (.inr (.inr (.inl ⟨b, rfl, rfl⟩)))
  | _ =>
    refine .inr (.inr (.inr (.inr ⟨⟨by simp, by simp, by simp, by simp⟩, ?_⟩)))
    cases h; exact ⟨_, rfl⟩

theorem runSteps_one (s : State) : runSteps 1 s = step s := by
  simp only [runSteps]
  cases step s <;> rfl

theorem runSteps_next (k : Nat) (s t : State) (h : step s = .next t) :
    runSteps (k + 1) s = runSteps k t := by
  simp [runSteps, h]

/-- A run is one part after the other. -/
theorem runSteps_add (j k : Nat) (s t : State) (h : runSteps j s = .next t) :
    runSteps (j + k) s = runSteps k t := by
  induction j generalizing s with
  | zero => cases h; rw [Nat.zero_add]
  | succ j ih =>
    simp only [runSteps] at h
    split at h
    · rename_i u hu
      rw [Nat.add_right_comm, runSteps_next _ _ _ hu, ih _ h]
    · cases h
    · cases h

/-- A state that a step leaves as it is stays. -/
theorem runSteps_stay (k : Nat) (s : State) (h : step s = .next s) : runSteps k s = .next s := by
  induction k with
  | zero => rfl
  | succ k ih => rw [runSteps_next _ _ _ h, ih]

/-- The sequencer's steps alone are a run of the three agents. -/
theorem runSteps_eq_runActions (k : Nat) (s : State) :
    runSteps k s = runActions (List.replicate k .step) s := by
  induction k generalizing s with
  | zero => rfl
  | succ k ih =>
    simp only [runSteps, List.replicate_succ, runActions, act]
    cases step s <;> simp [ih]

/-- Perform a list of micro-operations, one after the other; `none` where one blocks. -/
def State.performAll (s : State) : List MicroOp → Option State
  | [] => some s
  | u :: us =>
    match s.perform u with
    | none => none
    | some t => t.performAll us

theorem State.performAll_append (s : State) (us vs : List MicroOp) :
    s.performAll (us ++ vs) = (s.performAll us).bind (·.performAll vs) := by
  induction us generalizing s with
  | nil => rfl
  | cons u us ih =>
    simp only [List.cons_append, State.performAll]
    cases s.perform u <;> simp [ih]

/-- `uq` is no part of what a micro-operation does. -/
theorem State.perform_load (s : State) (u : MicroOp) (q : List MicroOp) :
    (s.load q).perform u = (s.perform u).map (·.load q) := by
  obtain ⟨mode, cnt, clk, dat, sh, smp, cmd, uq, rx, trace, wire, draws⟩ := s
  cases u <;> try rfl
  all_goals
    first
    | (cases wire <;> rfl)
    | (cases rx <;> rfl)

/-- The mode stays off HALT unless a micro-operation enters it. -/
theorem State.perform_mode (s t : State) (u : MicroOp) (h : s.perform u = some t)
    (hu : u ≠ .mode .halt) (hm : s.mode ≠ .halt) : t.mode ≠ .halt := by
  obtain ⟨_, _, rfl⟩ | ⟨_, rfl⟩ | ⟨_, rfl⟩ | ⟨_, _, rfl⟩ | ⟨_, _, rfl⟩ | ⟨_, rfl⟩ | ⟨_, rfl⟩ |
    ⟨_, _, _, rfl⟩ | ⟨_, _, _, rfl⟩ | ⟨_, rfl⟩ | ⟨_, _, _, _, rfl⟩ | ⟨m, rfl, rfl⟩ | ⟨_, rfl⟩ |
    ⟨_, _, _, rfl⟩ := s.perform_cases t u h <;> try exact hm
  simpa using hu

/-- A run through the pending micro-operations performs them, whatever follows them. -/
theorem runSteps_performAll (us vs : List MicroOp) (s t : State) (hm : s.mode ≠ .halt)
    (hu : MicroOp.mode .halt ∉ us) (h : s.performAll us = some t) :
    runSteps us.length (s.load (us ++ vs)) = .next (t.load vs) := by
  induction us generalizing s with
  | nil => cases h; rfl
  | cons u us ih =>
    simp only [State.performAll] at h
    split at h
    · cases h
    · rename_i r hr
      simp only [List.mem_cons, not_or] at hu
      have hp : (s.load (u :: us ++ vs)).perform u = some (r.load (u :: us ++ vs)) := by
        rw [State.perform_load, hr]; rfl
      have hs := step_micro (s.load (u :: us ++ vs)) _ u (us ++ vs) hm rfl hp
      rw [List.length_cons, runSteps_next _ _ _ hs]
      exact ih r (s.perform_mode r u hr (Ne.symm hu.1) hm) hu.2 h

end Sys2Proof.Machine
end

