-- ==== Sys2Proof/Laws/Wire.lean ====
section
/-! SUPPORT. The views of a trace over its parts: what is seen of two traces in a row. -/

namespace Sys2Proof.Machine

@[simp] theorem txBytes_append (a b : List Event) : txBytes (a ++ b) = txBytes a ++ txBytes b := by simp [txBytes]
@[simp] theorem rxBytes_append (a b : List Event) : rxBytes (a ++ b) = rxBytes a ++ rxBytes b := by simp [rxBytes]
@[simp] theorem clkLevels_append (a b : List Event) : clkLevels (a ++ b) = clkLevels a ++ clkLevels b := by
  simp [clkLevels]
@[simp] theorem datLevels_append (a b : List Event) : datLevels (a ++ b) = datLevels a ++ datLevels b := by
  simp [datLevels]
@[simp] theorem smpLevels_append (a b : List Event) : smpLevels (a ++ b) = smpLevels a ++ smpLevels b := by
  simp [smpLevels]
@[simp] theorem holds_append (a b : List Event) : holds (a ++ b) = holds a + holds b := by simp [holds]

/-- Levels driven in a row: the later ones are classed from where the earlier ones leave the line. -/
theorem lineEdges_append (last : Option Level) (a b : List Level) :
    lineEdges last (a ++ b) = lineEdges last a ++ lineEdges (a.foldl (fun _ l => some l) last) b := by
  induction a generalizing last with
  | nil => rfl
  | cons l a ih => simp [lineEdges, ih]

/-- The latch's way through a trace is its way through the levels driven. -/
theorem foldl_clkAfter (last : Option Level) (es : List Event) :
    es.foldl clkAfter last = (clkLevels es).foldl (fun _ l => some l) last := by
  induction es generalizing last with
  | nil => rfl
  | cons e es ih => cases e <;> simpa [clkLevels, clkAfter] using ih _

theorem foldl_datAfter (last : Option Level) (es : List Event) :
    es.foldl datAfter last = (datLevels es).foldl (fun _ l => some l) last := by
  induction es generalizing last with
  | nil => rfl
  | cons e es ih => cases e <;> simpa [datLevels, datAfter] using ih _

theorem clkEdges_append (last : Option Level) (a b : List Event) :
    clkEdges last (a ++ b) = clkEdges last a ++ clkEdges (a.foldl clkAfter last) b := by
  rw [clkEdges, clkLevels_append, lineEdges_append, foldl_clkAfter]; rfl

theorem datEdges_append (last : Option Level) (a b : List Event) :
    datEdges last (a ++ b) = datEdges last a ++ datEdges (a.foldl datAfter last) b := by
  rw [datEdges, datLevels_append, lineEdges_append, foldl_datAfter]; rfl

/-- From a known level every edge is known. -/
theorem unspecified_not_mem_lineEdges (l : Level) (ls : List Level) :
    Edge.unspecified ∉ lineEdges (some l) ls := by
  induction ls generalizing l with
  | nil => simp [lineEdges]
  | cons m ls ih =>
    simp only [lineEdges, List.mem_cons, not_or]
    exact ⟨by cases l <;> cases m <;> decide, ih m⟩

/-- An edge is unspecified exactly where a line without a level is driven (R55). -/
theorem unspecified_mem_lineEdges (last : Option Level) (ls : List Level) :
    Edge.unspecified ∈ lineEdges last ls ↔ last = none ∧ ls.foldl (fun _ l => some l) last ≠ none := by
  have hsome (ls : List Level) (l : Level) : ls.foldl (fun _ l => some l) (some l) ≠ none := by
    induction ls generalizing l with
    | nil => simp
    | cons m ls ih => exact ih m
  cases last with
  | some l => simp [unspecified_not_mem_lineEdges]
  | none =>
    cases ls with
    | nil => simp [lineEdges]
    | cons m ls => simp [lineEdges, edgeOf, hsome]

end Sys2Proof.Machine
end

