-- ==== Sys2Proof/Tests/Slice0.lean ====
section
/-! SUPPORT. Tests of one step or one definition on small states, their results taken from spec/ (the tables of
30_encoding.md and the vectors of 95_test_vectors.md), and a witness for each statement's hypotheses. -/

namespace Sys2Proof.Tests

open Sys2Proof Sys2Proof.Machine

/-- Idle with `cnt` and the bytes given. -/
def idleAt (cnt : BitVec 5) (rx : List Byte) : State := { State.reset with cnt := cnt, rx := rx }

/-- Raw-wire mode with the bytes given. -/
def rawAt (rx : List Byte) : State := { State.reset with mode := .raw, rx := rx }

/-- Raw-wire mode with the micro-operations given pending. -/
def busyAt (uq : List MicroOp) (rx : List Byte) : State := { State.reset with mode := .raw, uq := uq, rx := rx }

def halted : State := { State.reset with mode := .halt }

/-- The state after one step. -/
def after (s : State) : Option State :=
  match step s with
  | .next t => some t
  | _ => none

/-! ## WellFormed: an ill-formed term for each check (R86, R89, R100) -/

theorem test_wf_ign_not_nul : (Instr.ign 0x00).wf = false := by decide
theorem test_wf_ign_not_enter : (Instr.ign 0x05).wf = false := by decide
theorem test_wf_ill_not_legal : (Instr.ill 0x06).wf = false ∧ (Instr.ill 0x1F).wf = false := by decide
theorem test_wf_ill_bounds :
    (Instr.ill 0x08).wf = true ∧ (Instr.ill 0x09).wf = false ∧ (Instr.ill 0x30).wf = true ∧
    (Instr.ill 0x8F).wf = false ∧ (Instr.ill 0x90).wf = true := by decide
theorem test_wf_line_counts : (HostLine.mk (.bwrite 1) [0xA5]).wf = false ∧
    (HostLine.mk (.bwrite 1) [0xA5, 0x3C]).wf = true ∧ (HostLine.mk .reann [0x00]).wf = false := by decide

/-! ## Decode: each constructor's byte, written out bit by bit from R86 and R87 -/

theorem test_decode_nul : decode .idle [0b00000000#8] = .ok (.nul, []) := by rfl
theorem test_decode_enter : decode .idle [0b00000101#8] = .ok (.enter, []) := by rfl
theorem test_decode_ign : decode .idle [0b11111111#8, 0x07] = .ok (.ign 0xFF, [0x07]) := by rfl
theorem test_decode_exit : decode .raw [0b00000000#8] = .ok (.exit, []) := by rfl
theorem test_decode_reann : decode .raw [0b00000001#8] = .ok (.reann, []) := by rfl
theorem test_decode_rdbyte : decode .raw [0b00000110#8] = .ok (.rdbyte, []) := by rfl
theorem test_decode_rdbit : decode .raw [0b00000111#8] = .ok (.rdbit, []) := by rfl
theorem test_decode_clktick : decode .raw [0b00001001#8] = .ok (.clktick, []) := by rfl
theorem test_decode_setclk : decode .raw [0b00001011#8] = .ok (.setclk true, []) := by rfl
theorem test_decode_setdat : decode .raw [0b00001100#8] = .ok (.setdat false, []) := by rfl
theorem test_decode_bwrite : decode .raw [0b00011111#8, 0xA5] = .ok (.bwrite 15, [0xA5]) := by rfl
theorem test_decode_bclk : decode .raw [0b00100010#8] = .ok (.bclk 2, []) := by rfl
theorem test_decode_cfgper : decode .raw [0b01001111#8] = .ok (.cfgper 15, []) := by rfl
theorem test_decode_cfgspd : decode .raw [0b01100011#8] = .ok (.cfgspd 3, []) := by rfl
theorem test_decode_cfgmode : decode .raw [0b10001010#8] = .ok (.cfgmode 10, []) := by rfl
theorem test_decode_ill : decode .raw [0b00000101#8] = .ok (.ill 0x05, []) := by rfl

/-- R85: nothing is decoded in HALT, nothing without a byte. -/
theorem test_decode_refusals :
    decode .halt [0x00] = .error .halted ∧ decode .raw [] = .error .needByte := ⟨rfl, rfl⟩

/-- R87, R89: 89 legal bytes and 167 illegal ones. -/
theorem test_decode_counts :
    ((List.range 256).filter fun n => rawRows.any (·.hits (BitVec.ofNat 8 n))).length = 89 ∧
    ((List.range 256).filter fun n => illegalRaw (BitVec.ofNat 8 n)).length = 167 := by decide +kernel

/-- R86: 254 Idle bytes are discarded. -/
theorem test_decode_idle_count :
    ((List.range 256).filter fun n => ignoredIdle (BitVec.ofNat 8 n)).length = 254 := by decide +kernel

/-- R100's formulas, at their ends. -/
theorem test_encode_ends :
    encode (.bwrite 0) = [0x10] ∧ encode (.bwrite 15) = [0x1F] ∧ encode (.bclk 15) = [0x2F] ∧
    encode (.setclk false) = [0x0A] ∧ encode (.setdat true) = [0x0D] ∧ encode (.cfgmode 15) = [0x8F] := by decide

/-- 95_test_vectors.md P2: the script's bytes. -/
theorem test_assemble_P2 :
    assemble ([.plain .enter] ++ pseudoClklo ++ pseudoDathi ++ [⟨.bwrite 1, [0xA5, 0x3C]⟩, .plain .rdbyte] ++
      pseudoDathi ++ [.plain .rdbit, .plain .exit]) =
    [0x05, 0x0A, 0x0D, 0x11, 0xA5, 0x3C, 0x06, 0x0D, 0x07, 0x00] := by decide

/-- R101: `SYNC` is 0x00 twenty times. -/
theorem test_assemble_sync : assemble pseudoSync = List.replicate 20 0x00 := by decide

/-- The banners are the ASCII codes of their strings (R2). -/
theorem test_banners_ascii :
    "BBIO1".toList.map (fun c => BitVec.ofNat 8 c.toNat) = Config.bannerIdle ∧
    "RAW1".toList.map (fun c => BitVec.ofNat 8 c.toNat) = Config.bannerRaw := by decide

/-- `MODE_ENC` (R7). -/
theorem test_mode_bits : modeBits .idle = 0 ∧ modeBits .raw = 1 ∧ modeBits .halt = 2 := by decide

/-! ## The words of spec/opcode_table.json -/

theorem test_table_word_bwrite :
    decodeTableWord 8 0x1F = some (.bwrite 15) ∧
    (State.reset.withFetchWord 8 0x11).rx = [0x11, 0x00, 0x00] := by decide

theorem test_table_word_runs_first :
    (after (State.reset.withFetchWord 8 0x0B)).map (·.uq) = some [.clk true, .tx 0x01] := by decide

/-! ## One step of each command (95_test_vectors.md) -/

/-- V1 to V2: the count is compared after the increment. -/
theorem test_nul_counts : (after (idleAt 18 [0x00])).map (fun t => (t.cnt, t.uq)) = some (19, []) := by decide
/-- V8. -/
theorem test_nul_announces : (after (idleAt 19 [0x00])).map (fun t => (t.cnt, t.uq)) =
    some (20, [.tx 0x42, .tx 0x42, .tx 0x49, .tx 0x4F, .tx 0x31, .cnt0]) := by decide
/-- V6: the mode is not raw before the banner is out. -/
theorem test_enter : (after (idleAt 0 [0x05])).map (fun t => (t.mode, t.uq)) =
    some (.idle, [.tx 0x52, .tx 0x41, .tx 0x57, .tx 0x31, .mode .raw]) := by decide
/-- V7. -/
theorem test_ign : (after (idleAt 7 [0xFF])).map (fun t => (t.mode, t.cnt, t.uq, t.trace)) =
    some (.idle, 7, [], [.rx 0xFF]) := by decide
/-- V10. -/
theorem test_exit : (after (rawAt [0x00])).map (·.uq) =
    some [.tx 0x42, .tx 0x42, .tx 0x49, .tx 0x4F, .tx 0x31, .mode .idle, .cntX] := by decide
/-- V11. -/
theorem test_reann : (after (rawAt [0x01])).map (·.uq) = some [.tx 0x52, .tx 0x41, .tx 0x57, .tx 0x31] := by decide
/-- V12. -/
theorem test_cfgper : (after (rawAt [0x4F])).map (·.uq) = some [.tx 0x01] := by decide
/-- V13. -/
theorem test_cfgspd : (after (rawAt [0x63])).map (·.uq) = some [.tx 0x01] := by decide
/-- V13. -/
theorem test_cfgmode : (after (rawAt [0x8A])).map (fun t => (t.mode, t.uq)) = some (.raw, [.tx 0x01]) := by decide
/-- V22: the byte is consumed, `cmd` and `mode` are written, nothing is pending. -/
theorem test_ill : (after (rawAt [0xFF, 0x00])).map (fun t => (t.mode, t.cmd, t.uq, t.rx)) =
    some (.halt, 0xFF, [], [0x00]) := by decide
/-- V40: no step after a halt. -/
theorem test_halted_steps_no_more : step { halted with rx := [0x00] } = .fault .halted := by rfl
/-- V21: the sample lies between the high hold and the low clock. -/
theorem test_rdbit : (after (rawAt [0x07])).map (·.uq) =
    some [.clk true, .dly, .smp, .clk false, .dly, .txSmp] := by decide
/-- V20. -/
theorem test_clktick : (after (rawAt [0x09])).map (·.uq) =
    some [.clk true, .dly, .clk false, .dly, .tx 0x01] := by decide
/-- V14. -/
theorem test_setclk : (after (rawAt [0x0A])).map (·.uq) = some [.clk false, .tx 0x01] := by decide
/-- V15. -/
theorem test_setdat : (after (rawAt [0x0D])).map (·.uq) = some [.dat true, .tx 0x01] := by decide
/-- V17: N = 2. -/
theorem test_bclk : (after (rawAt [0x21])).map (·.uq) =
    some [.clk true, .dly, .clk false, .dly, .clk true, .dly, .clk false, .dly, .tx 0x01] := by decide
/-- R172: 42 micro-operations, the accumulator cleared. -/
theorem test_rdbyte : (after { rawAt [0x06] with sh := 0xFF }).map (fun t => (t.uq.length, t.uq.head?, t.sh)) =
    some (42, some (.dat true), 0x00) := by decide
/-- V36: 929 micro-operations for N = 16. -/
theorem test_bwrite : (after (rawAt [0x1F])).map (fun t => (t.uq.length, t.uq.take 2)) =
    some (929, [.tx 0x01, .rxSh]) := by decide +kernel
/-- V34: blocked in `uRXsh`, unchanged. -/
theorem test_bwrite_stalls : after (busyAt [.rxSh] []) = some (busyAt [.rxSh] []) := by decide
/-- R66: a data byte 0x00 or 0xFF is not decoded. -/
theorem test_data_byte_not_decoded : (after (busyAt [.rxSh, .shr] [0xFF])).map (fun t => (t.mode, t.sh, t.uq)) =
    some (.raw, 0xFF, [.shr]) := by decide
/-- R27 `uSMPacc`: the sample enters at bit 7, the old bits move down. -/
theorem test_sample_accumulates :
    (after { busyAt [.smpAcc] [] with sh := 0xA6, wire := [true, false] }).map
      (fun t => (t.sh, t.smp, t.wire, t.trace)) = some (0xD3, true, [false], [.smp true]) := by decide
/-- V37: after reset the fetch blocks. -/
theorem test_reset_blocks : State.reset.blocked = true := by decide
/-- V25, V28, V28b: first sample in bit 0, last in bit 7. -/
theorem test_assembled :
    assembled [true, true, false, false, true, false, true, false] = 0x53 ∧
    assembled [false, false, false, false, false, false, false, true] = 0x80 ∧
    assembled [true, false, false, false, false, false, false, false] = 0x01 := by decide
/-- V29, V32: bit 0 first. -/
theorem test_byte_levels :
    byteLevels 0xA5 = [true, false, true, false, false, true, false, true] ∧
    byteLevels 0x80 = [false, false, false, false, false, false, false, true] := by decide
/-- V19: from a high clock, 2 rising and 3 falling edges. -/
theorem test_edges_from_high :
    (clkEdges (some true) (List.replicate 3 pulseEvents).flatten).count .rising = 2 ∧
    (clkEdges (some true) (List.replicate 3 pulseEvents).flatten).count .falling = 3 := by decide
/-- R55: the first `DAT` after reset is unspecified, a level driven again is no edge. -/
theorem test_edges_of_data :
    datEdges none [.dat true, .dly, .dat true, .dat false] = [.unspecified, .same, .falling] := by decide
/-- R30, R195: reset wins over a pending byte; a pending byte waits. -/
theorem test_cycle_reset_first :
    cycle ⟨true, false, false, false⟩ ⟨busyAt [.tx 0x01] [], false⟩ = .next ⟨State.reset, false⟩ ∧
    cycle ⟨false, false, false, false⟩ ⟨busyAt [.tx 0x01] [], false⟩ = .next ⟨busyAt [.tx 0x01] [], false⟩ := ⟨rfl, rfl⟩
/-- R30: `dly_start_o` is 1 in the first cycle of a hold and 0 in the next. -/
theorem test_cycle_delay_pulse :
    (Clocked.mk (busyAt [.dly] []) false).dlyStartO = true ∧
    cycle ⟨false, true, false, false⟩ ⟨busyAt [.dly] [], false⟩ = .next ⟨busyAt [.dly] [], true⟩ ∧
    (Clocked.mk (busyAt [.dly] []) true).dlyStartO = false := ⟨rfl, rfl, rfl⟩

/-! ## Witnesses: the hypotheses of each statement can be met, each clause at an end of its range -/

theorem witness_StepRunsTheDecodedCommand :
    (∃ s : State, s.uq = [] ∧ s.rx = [0x1F] ∧ decode s.mode [0x1F] = .ok (.bwrite 15, [])) ∧
    ∃ s : State, s.uq = [] ∧ s.rx = [0x1F] ∧ decode s.mode [0x1F] = .ok (.ign 0x1F, []) :=
  ⟨⟨rawAt [0x1F], rfl, rfl, rfl⟩, ⟨idleAt 0 [0x1F], rfl, rfl, rfl⟩⟩

theorem witness_StepPerformsEachMicroOperation :
    (∀ u : MicroOp, ∃ (s : State) (us : List MicroOp), s.mode ≠ .halt ∧ s.uq = u :: us) ∧
    (∃ (s : State) (us : List MicroOp), s.mode ≠ .halt ∧ s.uq = .rxSh :: us ∧ s.rx = [0xA5]) ∧
    (∃ (s : State) (us : List MicroOp), s.mode ≠ .halt ∧ s.uq = .rxSh :: us ∧ s.rx = []) ∧
    ∃ (s : State) (us : List MicroOp), s.mode ≠ .halt ∧ s.uq = .smp :: us ∧ s.wire = [true] :=
  ⟨fun u => ⟨busyAt [u] [], [], by simp [busyAt], rfl⟩, ⟨busyAt [.rxSh] [0xA5], [], by decide⟩,
    ⟨busyAt [.rxSh] [], [], by decide⟩, ⟨{ busyAt [.smp] [] with wire := [true] }, [], by decide⟩⟩

theorem witness_DecodeUndoesEncode :
    (Instr.bwrite 15).wf = true ∧ (Instr.ign 0xFF).wf = true ∧ (Instr.ill 0x02).wf = true := by decide

theorem witness_EveryByteHasOneReading :
    Mode.idle ≠ .halt ∧ Mode.raw ≠ .halt ∧ Instr.reann.wf = true ∧ Instr.reann.table = .raw ∧
    encode .reann = [0x01] := by decide

theorem witness_RowOrderCannotMatter : rawRows.reverse.Perm rawRows := List.reverse_perm rawRows

theorem witness_NulCountsAndAnnounces :
    (∃ s : State, s.mode = .idle ∧ s.uq = [] ∧ s.cnt.toNat < 19) ∧
    (∃ s : State, s.mode = .idle ∧ s.uq = [] ∧ s.cnt.toNat = 18) ∧
    ∃ s : State, s.mode = .idle ∧ s.uq = [] ∧ s.cnt = 19 :=
  ⟨⟨idleAt 0 [], by decide⟩, ⟨idleAt 18 [], by decide⟩, ⟨idleAt 19 [], by decide⟩⟩

theorem witness_EnterAnnouncesAndEntersRaw :
    (idleAt 0 []).mode = .idle ∧
    ∃ t u, exec .enter (idleAt 0 []) = .next t ∧ runSteps 4 t = .next u :=
  ⟨rfl, _, _, rfl, rfl⟩

theorem witness_IgnDiscardsTheByte :
    ∃ s : State, (Instr.ign 0x06).wf = true ∧ s.mode = .idle ∧ s.uq = [] ∧ s.rx = [0x06] :=
  ⟨idleAt 0 [0x06], by decide⟩

theorem witness_IdleCounterLaw :
    ∃ s : State, s.mode = .idle ∧ s.uq = [] ∧ s.cnt.toNat ≤ 19 ∧ s.rx = [0x00, 0x33] ++ [0x05] ∧
      (0x05 : Byte) ∉ [(0x00 : Byte), 0x33] :=
  ⟨idleAt 19 [0x00, 0x33, 0x05], by decide⟩

/-- For the clause `RunsOn` of the command statements, in each mode. -/
theorem witness_RunsOn :
    (∃ s : State, s.mode = Instr.nul.table ∧ s.uq = [] ∧ s.rx = 0x00 :: []) ∧
    ∃ s : State, s.mode = (Instr.bclk 15).table ∧ s.uq = [] ∧ s.rx = (0x20 ||| (15 : BitVec 4).setWidth 8) :: [0x07] :=
  ⟨⟨idleAt 0 [0x00], by decide⟩, ⟨rawAt [0x2F, 0x07], by decide⟩⟩

/-- For the statements whose one hypothesis is the raw-wire mode: `EXIT`, `REANN`, the configuration groups, `RDBIT`,
`CLKTICK`, `SETCLK`, `SETDAT`, `RDBYTE`. -/
theorem witness_raw_mode : ∃ s : State, s.mode = .raw := ⟨rawAt [], rfl⟩

theorem witness_RdbitRepliesTheSample : ∃ s : State, s.mode = .raw ∧ ∃ w ws, s.wire = w :: ws :=
  ⟨{ rawAt [] with wire := [true] }, rfl, true, [], rfl⟩

theorem witness_RdbyteAssemblesTheSamples : ∃ s : State, s.mode = .raw ∧ s.wire[7]? = some true :=
  ⟨{ rawAt [] with wire := List.replicate 8 true }, by decide⟩

theorem witness_IllegalByteHalts :
    ∃ s : State, (Instr.ill 0x05).wf = true ∧ s.mode = .raw ∧ s.uq = [] ∧ s.rx = [0x05, 0x00] :=
  ⟨rawAt [0x05, 0x00], by decide⟩

theorem witness_HaltLastsUntilReset :
    halted.mode = .halt ∧ Action.reset ∉ [Action.send 0x00, .step] ∧ Action.step ∈ [Action.send 0x00, .step] ∧
    Action.step ∉ [Action.send 0x00, .answer true] := by decide

theorem witness_BclkPulsesNTimes :
    (∃ s : State, s.mode = .raw ∧ s.clk = some false) ∧ (∃ s : State, s.mode = .raw ∧ s.clk = some true) ∧
    ∃ s : State, s.mode = .raw ∧ s.clk = none :=
  ⟨⟨{ rawAt [] with clk := some false }, by decide⟩, ⟨{ rawAt [] with clk := some true }, by decide⟩,
    ⟨rawAt [], by decide⟩⟩

theorem witness_BwriteShiftsEachByteOut :
    (∃ (s : State) (ds : List Byte), s.mode = .raw ∧ ds.length = (0 : BitVec 4).toNat + 1 ∧ s.rx = ds ++ [0x01]) ∧
    ∃ (s : State) (ds : List Byte), s.mode = .raw ∧ ds.length = (15 : BitVec 4).toNat + 1 ∧ s.rx = ds ++ [] :=
  ⟨⟨rawAt [0xA5, 0x01], [0xA5], by decide⟩,
    ⟨rawAt (List.replicate 16 0xFF), List.replicate 16 0xFF, by decide⟩⟩

theorem witness_ShortBulkWriteStalls :
    (∃ s : State, s.mode = .raw ∧ ([] : List Byte).length < (0 : BitVec 4).toNat + 1 ∧ s.rx = []) ∧
    ∃ s : State, s.mode = .raw ∧ [(0xA5 : Byte)].length < (1 : BitVec 4).toNat + 1 ∧ s.rx = [0xA5] :=
  ⟨⟨rawAt [], by decide⟩, ⟨rawAt [0xA5], by decide⟩⟩

theorem witness_BulkWriteKeepsDataStable :
    ∃ (s t u : State), s.mode = .raw ∧ exec (.bwrite 0) s = .next t ∧ 1 ≤ t.uq.length ∧ runSteps 1 t = .next u :=
  ⟨rawAt [], _, _, rfl, rfl, by decide, rfl⟩

theorem witness_ReadUndoesWrite :
    ∃ s r : State, s.mode = .raw ∧ s.rx = [0x96] ∧ r.mode = .raw ∧ r.wire = byteLevels 0x96 ++ [] :=
  ⟨rawAt [0x96], { rawAt [] with wire := byteLevels 0x96 }, by decide⟩

theorem witness_ExecFrame : ∃ t, exec .rdbyte (rawAt []) = .next t := ⟨_, rfl⟩

theorem witness_MicroOperationsMatchPseudocode :
    (∃ s r : State, s.uq = [] ∧ s.mode = Instr.nul.table ∧ reference .nul s = some r) ∧
    (∃ s r : State, s.uq = [] ∧ s.mode = Instr.rdbyte.table ∧ reference .rdbyte s = some r) ∧
    ∃ s r : State, s.uq = [] ∧ s.mode = (Instr.bwrite 0).table ∧ reference (.bwrite 0) s = some r :=
  ⟨⟨idleAt 19 [], _, rfl, rfl, rfl⟩, ⟨rawAt [], _, rfl, rfl, rfl⟩, ⟨rawAt [0xA5], _, rfl, rfl, rfl⟩⟩

/-- For `PinCommandsAreThese` and `LoadIsBounded`. -/
theorem witness_exec_from_ready :
    (rawAt []).uq = [] ∧ (∃ t, exec .rdbyte (rawAt []) = .next t) ∧ ∃ t, exec (.bwrite 15) (rawAt []) = .next t :=
  ⟨rfl, ⟨_, rfl⟩, ⟨_, rfl⟩⟩

theorem witness_EventCountsPerCommand :
    (∃ s : State, s.uq = [] ∧ s.mode = Instr.nul.table ∧ s.cnt = 19 ∧ s.rx = (HostLine.mk .nul []).bytes ++ []) ∧
    ∃ (line : HostLine) (s : State), line.wf = true ∧ s.uq = [] ∧ s.mode = line.instr.table ∧
      s.rx = line.bytes ++ [0x00] ∧ line.instr = .bwrite 1 :=
  ⟨⟨idleAt 19 [0x00], by decide⟩,
    ⟨⟨.bwrite 1, [0xA5, 0x3C]⟩, rawAt [0x11, 0xA5, 0x3C, 0x00], by decide⟩⟩

theorem witness_ScriptRepliesComeInOrder :
    ∃ (script : List HostLine) (s : State), s.uq = [] ∧ s.cnt.toNat = 19 ∧ scriptFits s.mode script = true ∧
      s.rx = assemble script ++ [0xAA] ∧ script.length = 5 :=
  ⟨[.plain .nul, .plain .enter, ⟨.bwrite 0, [0x96]⟩, .plain .rdbyte, .plain .exit],
    idleAt 19 [0x00, 0x05, 0x10, 0x96, 0x06, 0x00, 0xAA], by decide⟩

theorem witness_HandshakeWorksAfterExit :
    ∃ s : State, s.mode = .raw ∧ s.uq = [] ∧ s.rx = 0x00 :: List.replicate 20 0x00 :=
  ⟨rawAt (List.replicate 21 0x00), by decide⟩

theorem witness_StepHasOneOfThreeOutcomes :
    halted.mode = .halt ∧ State.reset.blocked = true ∧ (busyAt [.rxSh] []).blocked = true ∧
    (rawAt [0x01]).mode ≠ .halt ∧ (rawAt [0x01]).blocked = false ∧ (busyAt [.shr] []).blocked = false := by decide

theorem witness_ModeChangesOnlyHere :
    (∃ s t : State, step s = .next t ∧ t.mode ≠ s.mode ∧ s.uq = [.mode .idle]) ∧
    ∃ s t : State, step s = .next t ∧ t.mode ≠ s.mode ∧ s.uq = [] :=
  ⟨⟨busyAt [.mode .idle] [], _, rfl, nofun, rfl⟩, ⟨rawAt [0xFF], _, rfl, nofun, rfl⟩⟩

theorem witness_CounterChangesOnlyHere :
    (∃ s t : State, step s = .next t ∧ t.cnt ≠ s.cnt ∧ s.uq = []) ∧
    (∃ s t : State, step s = .next t ∧ t.cnt ≠ s.cnt ∧ s.uq = [.cnt0]) ∧
    ∃ s t : State, step s = .next t ∧ t.cnt ≠ s.cnt ∧ s.uq = [.cntX] := by
  refine ⟨⟨idleAt 0 [0x00], _, rfl, by decide, rfl⟩, ⟨{ busyAt [.cnt0] [] with cnt := 20 }, _, rfl, by decide, rfl⟩,
    ⟨{ busyAt [.cntX] [] with cnt := 31 }, _, rfl, fun h => ?_, rfl⟩⟩
  have hle := cntDrawn_le (Config.drawnCount 0 [])
  rw [show cntDrawn (Config.drawnCount 0 []) = 31 from h] at hle
  exact absurd hle (by decide)

theorem witness_StepKeepsInv :
    (∃ s t : State, s.Inv ∧ step s = .next t ∧ s.cnt = 19 ∧ t.cnt = 20) ∧
    ∃ s t : State, s.Inv ∧ step s = .next t ∧ t.mode = .halt :=
  ⟨⟨idleAt 19 [0x00], _, by decide, rfl, rfl, rfl⟩, ⟨rawAt [0xFF], _, by decide, rfl, rfl⟩⟩

/-- For `AgentsKeepInv`, `LatchesFollowTheTrace` and `SerialInputIsLossless`: the host sends 0x05 and the sequencer
fetches it. -/
theorem witness_runs_of_the_agents :
    State.reset.Inv ∧ State.reset.LatchInv ∧ Action.reset ∉ [Action.send 0x05, .step] ∧
    ∃ t, runActions [.send 0x05, .step] State.reset = .next t :=
  ⟨by decide, ⟨rfl, rfl, .inl rfl⟩, by decide, _, rfl⟩

theorem witness_AgentsKeepInv_halt :
    ∃ t, runActions [.send 0xFF, .step] (rawAt []) = .next t ∧ (rawAt []).Inv ∧ t.mode = .halt ∧ t.uq = [] :=
  ⟨_, rfl, by decide, rfl, rfl⟩

theorem witness_StepStaysAtItsCommand :
    ∃ s t : State, s.AtCommand ∧ step s = .next t ∧ t.uq ≠ [] :=
  ⟨rawAt [0x0B], _, .inl rfl, rfl, nofun⟩

theorem witness_LatchesAreNeverRead : ∃ s t : State, runSteps 2 s = .next t ∧ t.clk = some true :=
  ⟨rawAt [0x0B], _, rfl, rfl⟩

theorem witness_LeftoverContentsNeverShow : ∃ s t : State, s.uq = [] ∧ runSteps 2 s = .next t ∧ t.uq ≠ [] :=
  ⟨rawAt [0x06], _, rfl, rfl, nofun⟩

theorem witness_EdgesFollowTheLatches :
    (∃ s t : State, runSteps 2 s = .next t ∧ s.clk = none ∧ t.clk = some true) ∧
    ∃ s t : State, runSteps 2 s = .next t ∧ s.dat = none ∧ t.dat = some false :=
  ⟨⟨rawAt [0x0B], _, rfl, rfl, rfl⟩, ⟨rawAt [0x0C], _, rfl, rfl, rfl⟩⟩

theorem witness_ClockEdgeFollowsTheHandshakes :
    (busyAt [.tx 0x01] []).txValidO = true ∧ (busyAt [.dly] []).atHold = true ∧
    (busyAt [.smpAcc] []).samples = true ∧ (busyAt [.smp] []).samples = true ∧ (busyAt [.shr] []).samples = false ∧
    (busyAt [.shr] []).txValidO = false ∧ (busyAt [.shr] []).atHold = false := by decide

theorem witness_SerialPortsMoveOneByte :
    ((busyAt [.rxSh] [0xA5]).rxValidI = true ∧ (busyAt [.rxSh] [0xA5]).rxReadyO = true) ∧
    ((idleAt 0 [0x00]).rxValidI = true ∧ (idleAt 0 [0x00]).rxReadyO = true) ∧
    (busyAt [.txSh] []).txValidO = true ∧
    ((busyAt [.rxSh] []).rxValidI && (busyAt [.rxSh] []).rxReadyO) = false ∧
    ∃ d, cycle ⟨false, false, false, false⟩ ⟨busyAt [.rxSh] [], false⟩ = .next d :=
  ⟨by decide, by decide, by decide, by decide, _, rfl⟩

theorem witness_ClockEdgesKeepInv :
    ∃ d, (busyAt [.dly] []).Inv ∧ (busyAt [.dly] []).atHold = true ∧
      cycle ⟨false, false, false, false⟩ ⟨busyAt [.dly] [], true⟩ = .next d :=
  ⟨_, by decide, by decide, rfl⟩

end Sys2Proof.Tests
end

/-! ## The scope statements: runs of the agents, the invariants, and `exec` against the pseudocode -/

section
/-! What a command loads and what each micro-operation and each step leaves behind, said once. -/

namespace Sys2Proof.Machine

/-! ### Pending micro-operations -/

@[simp] theorem copies_length (n : Nat) (us : List MicroOp) : (copies n us).length = n * us.length := by
  induction n with
  | zero => simp [copies]
  | succ n ih => simp [copies, ih]; ring

theorem mem_of_mem_copies {u : MicroOp} {n : Nat} {us : List MicroOp} (h : u ∈ copies n us) : u ∈ us := by
  induction n with
  | zero => simp [copies] at h
  | succ n ih => exact (List.mem_append.1 h).elim id ih

/-- What R29 (c) and R21 ask of a list of pending micro-operations. -/
abbrev Loadable (us : List MicroOp) : Prop :=
  us.length ≤ 929 ∧ MicroOp.mode .halt ∉ us

theorem loadable_bclk (n : BitVec 4) : Loadable (copies (operandCount n) pulseOps ++ [ackOp]) := by
  have hn := n.isLt
  constructor
  · simp [operandCount, pulseOps]; omega
  · have hp : MicroOp.mode .halt ∉ pulseOps := by decide
    simpa [ackOp] using fun h => hp (mem_of_mem_copies h)

theorem loadable_bwrite (n : BitVec 4) : Loadable (ackOp :: copies (operandCount n) byteOps) := by
  have hn := n.isLt
  have hb : byteOps.length = 58 := rfl
  constructor
  · simp [operandCount, hb]; omega
  · have hp : MicroOp.mode .halt ∉ byteOps := by decide
    simpa [ackOp] using fun h => hp (mem_of_mem_copies h)

/-- Every command loads few enough micro-operations, and none that enters HALT (R21, R29 (c)). -/
theorem exec_uq_loadable (i : Instr) (s t : State) (hq : s.uq = []) (h : exec i s = .next t) :
    Loadable t.uq := by
  cases i with
  | nul =>
    simp only [exec, execNul] at h
    split at h <;> cases h
    · simp only [State.load_uq]; decide
    · simp only [hq]; decide
  | ign b => cases h; rw [hq]; decide
  | bclk n => cases h; exact loadable_bclk n
  | bwrite n => cases h; exact loadable_bwrite n
  | setclk l => cases h; simp [Loadable, ackOp]
  | setdat l => cases h; simp [Loadable, ackOp]
  | ill b => cases h; simp [Loadable]
  | _ => cases h; simp only [State.load_uq]; decide

/-! ### Micro-operations -/

/-- A micro-operation leaves `cnt` alone, and is then not `uCNT0`, or brings it into its range (R22). -/
theorem State.perform_cnt (s t : State) (u : MicroOp) (h : s.perform u = some t) :
    (t.cnt = s.cnt ∧ u ≠ .cnt0) ∨ t.cnt.toNat ≤ 19 := by
  obtain ⟨_, rfl, rfl⟩ | ⟨rfl, rfl⟩ | ⟨rfl, rfl⟩ | ⟨_, rfl, rfl⟩ | ⟨_, rfl, rfl⟩ | ⟨rfl, rfl⟩ | ⟨rfl, rfl⟩ |
    ⟨_, rfl, _, rfl⟩ | ⟨_, rfl, _, rfl⟩ | ⟨rfl, rfl⟩ | ⟨_, _, rfl, _, rfl⟩ | ⟨_, rfl, rfl⟩ | ⟨rfl, rfl⟩ |
    ⟨_, rfl, hc, rfl⟩ := s.perform_cases t u h <;> try exact .inl ⟨rfl, nofun⟩
  · exact .inr (Nat.zero_le 19)
  · exact .inr hc

/-- From `s` to `t` the events `es` are recorded, at most one, and the latches and `smp` go along with them (R11, R23,
R25). -/
structure State.Records (s t : State) (es : List Event) : Prop where
  trace : t.trace = s.trace ++ es
  atMostOne : es.length ≤ 1
  clk : t.clk = es.foldl clkAfter s.clk
  dat : t.dat = es.foldl datAfter s.dat
  smp : some t.smp = es.foldl smpAfter (some s.smp)

/-- Nothing recorded: the trace, the latches and `smp` are untouched. -/
theorem State.Records.silent {s t : State} (ht : t.trace = s.trace) (hc : t.clk = s.clk) (hd : t.dat = s.dat)
    (hs : t.smp = s.smp) : s.Records t [] :=
  ⟨by simp [ht], by simp, hc, hd, by simp [hs]⟩

theorem State.perform_records (s t : State) (u : MicroOp) (h : s.perform u = some t) :
    ∃ es, s.Records t es := by
  obtain ⟨_, _, rfl⟩ | ⟨_, rfl⟩ | ⟨_, rfl⟩ | ⟨_, _, rfl⟩ | ⟨_, _, rfl⟩ | ⟨_, rfl⟩ | ⟨_, rfl⟩ |
    ⟨_, _, _, rfl⟩ | ⟨_, _, _, rfl⟩ | ⟨_, rfl⟩ | ⟨_, _, _, _, rfl⟩ | ⟨_, _, rfl⟩ | ⟨_, rfl⟩ |
    ⟨_, _, _, rfl⟩ := s.perform_cases t u h <;> try exact ⟨[_], rfl, le_rfl, rfl, rfl, rfl⟩
  all_goals exact ⟨[], .silent rfl rfl rfl rfl⟩

/-! ### Steps -/

/-- `exec` drives and samples nothing, records nothing and reads no byte: its command's micro-operations do. -/
theorem exec_frame (i : Instr) (s t : State) (h : exec i s = .next t) :
    t.trace = s.trace ∧ t.rx = s.rx ∧ t.clk = s.clk ∧ t.dat = s.dat ∧ t.smp = s.smp := by
  obtain ⟨_, rfl⟩ | ⟨_, rfl⟩ | ⟨_, _, rfl⟩ | ⟨_, _, rfl⟩ | ⟨_, _, rfl⟩ := exec_cases i s t h <;>
    exact ⟨rfl, rfl, rfl, rfl, rfl⟩

/-- A step records at most one event, and the latches and `smp` go along with it (R12, R23, R25). -/
theorem step_records (s t : State) (h : step s = .next t) : ∃ es, s.Records t es := by
  obtain ⟨-, ⟨-, -, rfl⟩ | ⟨-, b, rest, -, he⟩ | ⟨u, us, r, -, hp, rfl⟩⟩ := step_cases s t h
  · exact ⟨[], .silent rfl rfl rfl rfl⟩
  · obtain ⟨ht, -, hc, hd, hs⟩ := exec_frame _ _ _ he
    exact ⟨[.rx b], ht, le_rfl, hc, hd, congrArg some hs⟩
  · obtain ⟨es, ht, hl, hc, hd, hs⟩ := s.perform_records r u hp
    exact ⟨es, ht, hl, hc, hd, hs⟩

/-- Only a halted sequencer has no step (R12, R190). -/
theorem step_next_of_ne_halt (s : State) (hm : s.mode ≠ .halt) : ∃ t, step s = .next t := by
  obtain ⟨hh, -⟩ | ⟨-, -, -, hw⟩ | ⟨-, -, b, rest, -, hw⟩ | ⟨-, u, us, t, -, -, hw⟩ := s.work_cases
  · exact absurd hh hm
  · exact ⟨s, by simp [step, hw]⟩
  · simpa [step, hw] using exec_next _ _
  · exact ⟨t.load us, by simp [step, hw]⟩

/-- *Blocked* said of the state: a byte is needed, by a fetch or by `uRXsh`, and none is there (R12, R51). -/
theorem State.blocked_iff (s : State) :
    s.blocked = true ↔ s.mode ≠ .halt ∧ s.rx = [] ∧ (s.uq = [] ∨ ∃ us, s.uq = .rxSh :: us) := by
  simp only [State.blocked, beq_iff_eq]
  constructor
  · intro hb
    obtain ⟨-, hw⟩ | ⟨hm, hr, hq, -⟩ | ⟨-, -, b, rest, -, hw⟩ | ⟨-, u, us, t, -, -, hw⟩ := s.work_cases
    · simp [hw] at hb
    · exact ⟨hm, hr, hq⟩
    · simp [hw] at hb
    · simp [hw] at hb
  · rintro ⟨hm, hr, hq | ⟨us, hq⟩⟩
    · exact s.work_wait hm hq hr
    · exact s.work_blocked us hm hq hr

/-- A step that is not blocked consumes a byte of `rx` or a micro-operation of `uq`, so the state differs. -/
theorem step_ne_self (s t : State) (hb : s.blocked = false) (h : step s = .next t) : t ≠ s := by
  obtain ⟨hm, ⟨hr, hq, -⟩ | ⟨-, b, rest, hr, he⟩ | ⟨u, us, r, hq, -, rfl⟩⟩ := step_cases s t h
  · have := s.blocked_iff.2 ⟨hm, hr, hq⟩
    simp [hb] at this
  · obtain ⟨-, hrx, -⟩ := exec_frame _ _ _ he
    rintro rfl
    simp [State.fetched, hr] at hrx
  · intro heq
    have huq : us = s.uq := congrArg State.uq heq
    simp [hq] at huq

/-! ### The invariant -/

/-- The fetch of a command: the count stays in its range, or is 20 with the `uCNT0` behind the banner loaded (R110). -/
theorem exec_cntInRange (i : Instr) (s t : State) (hc : s.cnt.toNat ≤ 19) (h : exec i s = .next t) :
    t.CntInRange := by
  obtain ⟨-, rfl⟩ | ⟨_, rfl⟩ | ⟨_, _, rfl⟩ | ⟨_, _, rfl⟩ | ⟨_, _, rfl⟩ := exec_cases i s t h
  · by_cases ha : cntNext s.cnt = 20
    · right
      simp [ha, cntAnnounces, Config.cntThreshold]
    · left
      simp only [cntNext] at ha ⊢
      bv_omega
  all_goals exact .inl hc

/-- Every step keeps the invariant (R22, R29 (a) to (c)). -/
theorem State.Inv.step {s t : State} (hi : s.Inv) (h : step s = .next t) : t.Inv := by
  have ⟨_, hcnt, hlen, hhalt⟩ := hi
  obtain ⟨hm, ⟨-, -, rfl⟩ | ⟨hq, b, rest, -, he⟩ | ⟨u, us, r, hq, hp, rfl⟩⟩ := step_cases s t h
  · exact hi
  · have hc : s.cnt.toNat ≤ 19 := by simpa [State.CntInRange, hq] using hcnt
    obtain ⟨hl, hh⟩ := exec_uq_loadable _ (s.fetched b rest) t hq he
    refine ⟨fun ht => ?_, exec_cntInRange _ (s.fetched b rest) t hc he, hl, hh⟩
    obtain ⟨_, rfl⟩ | ⟨_, rfl⟩ | ⟨_, _, rfl⟩ | ⟨_, _, rfl⟩ | ⟨_, _, rfl⟩ := exec_cases _ _ t he
    case inr.inr.inl => rfl
    all_goals exact absurd ht hm
  · simp only [hq, List.mem_cons, not_or, List.length_cons] at hhalt hlen
    have hmode := s.perform_mode r u hp (Ne.symm hhalt.1) hm
    refine ⟨fun hr => absurd hr hmode, ?_, by simp only [State.load]; omega, hhalt.2⟩
    obtain ⟨hc, hu⟩ | hc := s.perform_cnt r u hp
    · obtain hle | ⟨h20, hmem⟩ := hcnt
      · exact .inl (hc ▸ hle)
      · simp only [hq, List.mem_cons] at hmem
        exact .inr ⟨hc.trans h20, hmem.resolve_left (Ne.symm hu)⟩
    · exact .inl hc

/-- Reset meets the invariant whatever was before it (R37). -/
theorem State.hardReset_inv (s : State) : s.hardReset.Inv :=
  ⟨fun _ => rfl, .inl (Nat.zero_le 19), by simp, by simp⟩

/-- With no command in progress the count is in its range (R29 (b)). -/
theorem State.Inv.cnt_le {s : State} (hi : s.Inv) (hq : s.uq = []) : s.cnt.toNat ≤ 19 := by
  obtain ⟨-, hcnt, -, -⟩ := hi
  simpa [State.CntInRange, hq] using hcnt

/-! ### The latches -/

/-- From no level, events leave no last sample, or the one they leave from any level. -/
theorem foldl_smpAfter_none (v : Level) (es : List Event) :
    es.foldl smpAfter none = none ∨ es.foldl smpAfter none = es.foldl smpAfter (some v) := by
  induction es with
  | nil => exact .inl rfl
  | cons e es ih =>
    cases e with
    | smp w => exact .inr rfl
    | _ => exact ih

/-- Latches that follow the trace go on following it as events are recorded. -/
theorem State.LatchInv.records {s t : State} {es : List Event} (hi : s.LatchInv) (h : s.Records t es) :
    t.LatchInv := by
  obtain ⟨hclk, hdat, hsmp⟩ := hi
  refine ⟨?_, ?_, ?_⟩
  · rw [h.clk, hclk, h.trace, lastClk, lastClk, List.foldl_append]
  · rw [h.dat, hdat, h.trace, lastDat, lastDat, List.foldl_append]
  · have hlast : lastSmp t.trace = es.foldl smpAfter (lastSmp s.trace) := by
      rw [h.trace, lastSmp, lastSmp, List.foldl_append]
    rw [hlast, h.smp]
    obtain hnone | hsome := hsmp
    · rw [hnone]; exact foldl_smpAfter_none s.smp es
    · rw [hsome]; exact .inr rfl

/-! ### Runs of the agents -/

/-- What every action of every agent keeps, every run keeps. -/
theorem runActions_keeps {P : State → Prop} (hact : ∀ a s t, P s → act a s = .next t → P t)
    (as : List Action) (s t : State) (hs : P s) (h : runActions as s = .next t) : P t := by
  induction as generalizing s with
  | nil => cases h; exact hs
  | cons a as ih =>
    simp only [runActions] at h
    split at h
    · rename_i r hr
      exact ih r (hact a s r hs hr) h
    · cases h
    · cases h

theorem act_keeps_inv (a : Action) (s t : State) (hi : s.Inv) (h : act a s = .next t) : t.Inv := by
  cases a with
  | step => exact hi.step h
  | send b => cases h; exact hi
  | answer v => cases h; exact hi
  | reset => cases h; exact s.hardReset_inv

theorem act_keeps_latchInv (a : Action) (s t : State) (hi : s.LatchInv) (h : act a s = .next t) :
    t.LatchInv := by
  cases a with
  | step =>
    obtain ⟨es, hr⟩ := step_records s t h
    exact hi.records hr
  | send b => cases h; exact hi
  | answer v => cases h; exact hi
  | reset => cases h; exact ⟨rfl, rfl, .inl rfl⟩

/-! ### Micro-operations and pseudocode -/

theorem State.performAll_uq (us : List MicroOp) (s t : State) (h : s.performAll us = some t) : t.uq = s.uq := by
  induction us generalizing s with
  | nil => cases h; rfl
  | cons u us ih =>
    simp only [State.performAll] at h
    split at h
    · cases h
    · rename_i r hr
      exact (ih r h).trans (s.perform_frame r u hr).1

/-- Steps through all that a command loaded, from a state with nothing else pending. -/
theorem runSteps_load (us : List MicroOp) (s t : State) (hm : s.mode ≠ .halt) (hq : s.uq = [])
    (hu : MicroOp.mode .halt ∉ us) (h : s.performAll us = some t) :
    runSteps us.length (s.load us) = .next t := by
  have huq : t.uq = [] := (State.performAll_uq us s t h).trans hq
  have hload : t.load [] = t := by rw [State.load, ← huq]
  simpa [hload] using runSteps_performAll us [] s t hm hu h

/-- A banner's micro-operations send its string (R52). -/
theorem State.performAll_bannerOps (bs : List Byte) (s : State) :
    s.performAll (bannerOps bs) = some (s.txString bs) := by
  induction bs generalizing s with
  | nil => rfl
  | cons b bs ih => exact ih (s.txWrite b)

/-- Copies of a list of micro-operations are a loop around what the list does, which may block. -/
theorem State.performAll_copies_read {us : List MicroOp} {f : State → Option State}
    (hf : ∀ s : State, s.performAll us = f s) (n : Nat) (s : State) :
    s.performAll (copies n us) = repeatRead n f s := by
  induction n generalizing s with
  | zero => rfl
  | succ n ih =>
    rw [copies, State.performAll_append, hf, repeatRead]
    cases f s with
    | none => rfl
    | some t => exact ih t

/-- The same where the list cannot block. -/
theorem State.performAll_copies {us : List MicroOp} {f : State → State}
    (hf : ∀ s : State, s.performAll us = some (f s)) (n : Nat) (s : State) :
    s.performAll (copies n us) = some (repeatN n f s) := by
  induction n generalizing s with
  | zero => rfl
  | succ n ih => rw [copies, State.performAll_append, hf, repeatN]; exact ih (f s)

theorem State.performAll_writeSeqOps (s : State) : s.performAll writeSeqOps = some (writeBitSequence s) :=
  State.performAll_copies (f := writeBit) (fun _ => rfl) _ s

theorem State.performAll_readBits (n : Nat) (s : State) :
    s.performAll (copies n readBitOps) = some (repeatN n readBit s) :=
  State.performAll_copies (fun _ => rfl) n s

/-- `BYTE` is one data byte of R173, and blocks where that does. -/
theorem State.performAll_byteOps (s : State) : s.performAll byteOps = refDataByte s := by
  cases hr : s.rx with
  | nil => simp [byteOps, State.performAll, State.perform, refDataByte, s.rxRead_nil hr]
  | cons b rest =>
    simp only [byteOps, State.performAll, State.perform, refDataByte, s.rxRead_cons b rest hr,
      State.performAll_append, State.performAll_writeSeqOps]
    rfl

/-- A command other than `ILL` loads micro-operations that do, one after the other, what its pseudocode says. -/
theorem exec_loads_reference (i : Instr) (s : State) (hq : s.uq = []) (hi : ∀ b, i ≠ .ill b) :
    ∃ (c : State) (us : List MicroOp), exec i s = .next (c.load us) ∧ c.mode = s.mode ∧ c.uq = [] ∧
      c.performAll us = reference i s := by
  have hself : s = s.load [] := by rw [State.load, ← hq]
  cases i with
  | nul =>
    by_cases ha : cntAnnounces (cntNext s.cnt)
    · refine ⟨{ s with cnt := cntNext s.cnt }, bannerOps Config.bannerIdle ++ [.cnt0], ?_, rfl, hq, ?_⟩
      · simp [exec, execNul, ha]
      · rw [State.performAll_append, State.performAll_bannerOps]
        simp [reference, refNul, ha, State.performAll, State.perform]
    · refine ⟨{ s with cnt := cntNext s.cnt }, [], ?_, rfl, hq, ?_⟩
      · simp [exec, execNul, ha, State.load, hq]
      · simp [reference, refNul, ha, State.performAll]
  | ign b => exact ⟨s, [], congrArg _ hself, rfl, hq, rfl⟩
  | bclk n =>
    refine ⟨s, _, rfl, rfl, hq, ?_⟩
    rw [State.performAll_append, State.performAll_copies (f := pulse) fun _ => rfl]
    rfl
  | bwrite n => exact ⟨s, _, rfl, rfl, hq, State.performAll_copies_read State.performAll_byteOps _ _⟩
  | rdbyte =>
    refine ⟨{ s with sh := 0x00 }, readSeqOps ++ [.txSh], rfl, rfl, hq, ?_⟩
    rw [State.performAll_append, readSeqOps]
    simp only [State.performAll, State.perform, State.performAll_readBits]
    rfl
  | ill b => exact absurd rfl (hi b)
  | _ => exact ⟨s, _, rfl, rfl, hq, rfl⟩

end Sys2Proof.Machine
end

section
/-! The settled statements. -/

namespace Sys2Proof.Proofs

open Sys2Proof Sys2Proof.Machine

/-- Settles O40: every action of every agent keeps the invariant, so every run does. -/
theorem agentsKeepInv : Obligations.AgentsKeepInv := by
  intro as s t hs h
  have ht : t.Inv := runActions_keeps act_keeps_inv as s t hs h
  have ⟨hhalt, _⟩ := ht
  exact ⟨ht, ht.cnt_le, fun hm => ⟨step_halted t hm, hhalt hm⟩⟩

/-- Settles O41: the latches go along with each recorded event, and reset clears them with the trace. -/
theorem latchesFollowTheTrace : Obligations.LatchesFollowTheTrace :=
  runActions_keeps act_keeps_latchInv

/-- Settles O29: the loaded micro-operations perform the pseudocode, and the steps perform the micro-operations;
`ILL` is done in its fetch. -/
theorem microOperationsMatchPseudocode : Obligations.MicroOperationsMatchPseudocode := by
  intro i s r hq hm hr
  have hmode : s.mode ≠ .halt := by rw [hm]; cases i <;> simp [Instr.table]
  by_cases hi : ∃ b, i = .ill b
  · obtain ⟨b, rfl⟩ := hi
    cases hr
    exact ⟨_, rfl, rfl⟩
  · obtain ⟨c, us, he, hcm, hcq, hp⟩ := exec_loads_reference i s hq (by simpa using hi)
    obtain ⟨-, hhalt⟩ := exec_uq_loadable i s _ hq he
    exact ⟨_, he, runSteps_load us c r (hcm ▸ hmode) hcq hhalt (hp.trans hr)⟩

/-- Settles O35, by the choice of the next work. -/
theorem stepHasOneOfThreeOutcomes : Obligations.StepHasOneOfThreeOutcomes := by
  intro s
  refine ⟨fun hm => ⟨?_, step_halted s hm⟩, fun hb => ?_, fun hm hb => ?_⟩
  · simp [State.blocked, s.work_halt hm]
  · obtain ⟨hm, hr, hq⟩ := s.blocked_iff.1 hb
    have hstay : step s = .next s := by
      obtain hq | ⟨us, hq⟩ := hq
      · exact step_wait s hm hq hr
      · exact step_stalled s us hm hq hr
    refine ⟨hstay, hr, fun b => ⟨?_, step_next_of_ne_halt _ hm⟩⟩
    rw [← Bool.not_eq_true, State.blocked_iff]
    simp
  · obtain ⟨t, h⟩ := step_next_of_ne_halt s hm
    obtain ⟨es, hrec⟩ := step_records s t h
    refine ⟨t, h, step_ne_self s t hb h, ?_⟩
    match es, hrec with
    | [], hrec => exact .inl (by simpa using hrec.trace)
    | [e], hrec => exact .inr ⟨e, hrec.trace⟩
    | _ :: _ :: _, hrec => exact absurd hrec.atMostOne (by simp)

end Sys2Proof.Proofs
end

/-! ## The state statements: what a step may change, what no run reads, and the ports -/

section
/-! The fetch, the load of a command and each micro-operation: what they write and what they leave. -/

namespace Sys2Proof.Machine

/-! ### Fetching a command -/

/-- In each mode's table a byte reads as a well-formed command of that table whose command byte it is (R86, R87, R89); the
256 bytes are tried under both tables. -/
theorem commandOf_reads (m : Mode) (b : Byte) (hm : m ≠ .halt) :
    (commandOf m b).wf = true ∧ (commandOf m b).table = m ∧ encodeByte (commandOf m b) = b := by
  cases m with
  | idle => revert b; decide +kernel
  | raw => revert b; decide +kernel
  | halt => exact absurd rfl hm

/-- Only a byte of R89's list, fetched in RAW, reads as `ILL`. -/
theorem illegalRaw_of_commandOf {m : Mode} {b c : Byte} (hm : m ≠ .halt) (h : commandOf m b = .ill c) :
    m = .raw ∧ illegalRaw b = true := by
  obtain ⟨hwf, htable, hbyte⟩ := commandOf_reads m b hm
  rw [h] at hwf htable hbyte
  obtain rfl : c = b := hbyte
  exact ⟨htable.symm, hwf⟩

/-- Only 0x00, fetched in IDLE, reads as `NUL`. -/
theorem eq_zero_of_commandOf {m : Mode} {b : Byte} (hm : m ≠ .halt) (h : commandOf m b = .nul) :
    m = .idle ∧ b = 0x00 := by
  obtain ⟨-, htable, hbyte⟩ := commandOf_reads m b hm
  rw [h] at htable hbyte
  exact ⟨htable.symm, hbyte.symm⟩

/-- `exec` leaves `mode` alone but for `ILL` (R135). -/
theorem exec_mode (i : Instr) (s t : State) (h : exec i s = .next t) :
    t.mode = s.mode ∨ ∃ b, i = .ill b ∧ t.mode = .halt := by
  obtain ⟨_, rfl⟩ | ⟨_, rfl⟩ | ⟨b, hi, rfl⟩ | ⟨_, _, rfl⟩ | ⟨_, _, rfl⟩ := exec_cases i s t h
  case inr.inr.inl => exact .inr ⟨b, hi, rfl⟩
  all_goals exact .inl rfl

/-- `exec` leaves `cnt` alone but for `NUL` (R110). -/
theorem exec_cnt (i : Instr) (s t : State) (h : exec i s = .next t) :
    t.cnt = s.cnt ∨ i = .nul ∧ t.cnt = cntNext s.cnt := by
  obtain ⟨hi, rfl⟩ | ⟨_, rfl⟩ | ⟨_, _, rfl⟩ | ⟨_, _, rfl⟩ | ⟨_, _, rfl⟩ := exec_cases i s t h
  case inl => exact .inr ⟨hi, rfl⟩
  all_goals exact .inl rfl

/-- `exec` leaves `sh` alone but for `RDBYTE` (R172). -/
theorem exec_sh (i : Instr) (s t : State) (h : exec i s = .next t) :
    t.sh = s.sh ∨ i = .rdbyte ∧ t.sh = 0x00 := by
  obtain ⟨_, rfl⟩ | ⟨hi, rfl⟩ | ⟨_, _, rfl⟩ | ⟨_, _, rfl⟩ | ⟨_, _, rfl⟩ := exec_cases i s t h
  case inr.inl => exact .inr ⟨hi, rfl⟩
  all_goals exact .inl rfl

/-- `exec` writes neither `cmd`, which the fetch wrote, nor the model's own fields. -/
theorem exec_frame_own (i : Instr) (s t : State) (h : exec i s = .next t) :
    t.cmd = s.cmd ∧ t.wire = s.wire ∧ t.draws = s.draws := by
  obtain ⟨_, rfl⟩ | ⟨_, rfl⟩ | ⟨_, _, rfl⟩ | ⟨_, _, rfl⟩ | ⟨_, _, rfl⟩ := exec_cases i s t h <;>
    exact ⟨rfl, rfl, rfl⟩

/-! ### What a command loads -/

/-- `NUL` loads nothing, or the Idle banner and the `uCNT0` behind it (R110). -/
theorem exec_nul_uq (s t : State) (hq : s.uq = []) (h : exec .nul s = .next t) :
    t.uq = [] ∨ t.uq = bannerOps Config.bannerIdle ++ [.cnt0] := by
  simp only [exec, execNul] at h
  split at h <;> cases h
  · exact .inr rfl
  · exact .inl hq

/-- Copies hold what one of them holds. -/
@[simp] theorem mem_copies (u : MicroOp) (n : Nat) (us : List MicroOp) : u ∈ copies n us ↔ n ≠ 0 ∧ u ∈ us := by
  cases n with
  | zero => simp [copies]
  | succ n => exact ⟨fun h => ⟨n.succ_ne_zero, mem_of_mem_copies h⟩, fun h => List.mem_append_left _ h.2⟩

@[simp] theorem count_copies (u : MicroOp) (n : Nat) (us : List MicroOp) :
    (copies n us).count u = n * us.count u := by
  induction n with
  | zero => simp [copies]
  | succ n ih => simp [copies, ih]; ring

/-- A bulk command's count is at least 1 (R83 (b)). -/
@[simp] theorem operandCount_ne_zero (n : BitVec 4) : operandCount n ≠ 0 := n.toNat.succ_ne_zero

/-- A command loads `uMODE(m)` only for the mode it leaves (R200). -/
theorem exec_loads_modeAfter (i : Instr) (s t : State) (m : Mode) (hq : s.uq = []) (h : exec i s = .next t)
    (hmem : MicroOp.mode m ∈ t.uq) : m = i.modeAfter i.table := by
  cases i with
  | nul => obtain hu | hu := exec_nul_uq s t hq h <;> simp [hu, bannerOps] at hmem
  | ign b => cases h; simp [hq] at hmem
  | enter => cases h; simpa [bannerOps, Instr.modeAfter] using hmem
  | exit => cases h; simpa [bannerOps, Instr.modeAfter] using hmem
  | _ =>
    cases h
    simp [bannerOps, pulseOps, ackOp, readSeqOps, readBitOps, byteOps, writeSeqOps, writeBitOps] at hmem

/-- Which commands drive CLOCK (R34, R35). -/
theorem exec_loads_clk_iff (i : Instr) (s t : State) (hq : s.uq = []) (h : exec i s = .next t) :
    (∃ l, .clk l ∈ t.uq) ↔
      i = .rdbyte ∨ i = .rdbit ∨ i = .clktick ∨ (∃ l, i = .setclk l) ∨ (∃ n, i = .bwrite n) ∨ ∃ n, i = .bclk n := by
  cases i with
  | nul => obtain hu | hu := exec_nul_uq s t hq h <;> simp [hu, bannerOps]
  | ign b => cases h; simp [hq]
  | _ =>
    cases h
    simp [bannerOps, pulseOps, ackOp, readSeqOps, readBitOps, byteOps, writeSeqOps, writeBitOps, Config.bitsPerByte]

/-- Which commands drive DATA (R34, R35). -/
theorem exec_loads_dat_iff (i : Instr) (s t : State) (hq : s.uq = []) (h : exec i s = .next t) :
    (MicroOp.datSh ∈ t.uq ∨ ∃ l, .dat l ∈ t.uq) ↔
      i = .rdbyte ∨ (∃ l, i = .setdat l) ∨ ∃ n, i = .bwrite n := by
  cases i with
  | nul => obtain hu | hu := exec_nul_uq s t hq h <;> simp [hu, bannerOps]
  | ign b => cases h; simp [hq]
  | _ =>
    cases h
    simp [bannerOps, pulseOps, ackOp, readSeqOps, readBitOps, byteOps, writeSeqOps, writeBitOps, Config.bitsPerByte]

/-- How often each command samples DATA (R35). -/
theorem exec_loads_samples (i : Instr) (s t : State) (hq : s.uq = []) (h : exec i s = .next t) :
    t.uq.count .smpAcc + t.uq.count .smp = sampleCount i := by
  cases i with
  | nul => obtain hu | hu := exec_nul_uq s t hq h <;> simp [hu, bannerOps, Config.bannerIdle, sampleCount]
  | ign b => cases h; simp [hq, sampleCount]
  | _ =>
    cases h
    simp [bannerOps, Config.bannerIdle, Config.bannerRaw, pulseOps, ackOp, readSeqOps, readBitOps, byteOps, writeSeqOps,
      writeBitOps, Config.bitsPerByte, sampleCount]

/-- A command reads as many data bytes as its count says (R80, R84). -/
theorem exec_loads_reads (i : Instr) (s t : State) (hq : s.uq = []) (h : exec i s = .next t) :
    t.uq.count .rxSh = i.dataBytes := by
  cases i with
  | nul => obtain hu | hu := exec_nul_uq s t hq h <;> simp [hu, bannerOps, Config.bannerIdle, Instr.dataBytes]
  | ign b => cases h; simp [hq, Instr.dataBytes]
  | _ =>
    cases h
    simp [bannerOps, Config.bannerIdle, Config.bannerRaw, pulseOps, ackOp, readSeqOps, readBitOps, byteOps, writeSeqOps,
      writeBitOps, Instr.dataBytes]

/-- Only the longest bulk write loads 929 micro-operations (R29 (c)). -/
theorem exec_uq_length_max (i : Instr) (s t : State) (hq : s.uq = []) (h : exec i s = .next t) :
    t.uq.length = 929 ↔ i = .bwrite 15 := by
  cases i with
  | nul => obtain hu | hu := exec_nul_uq s t hq h <;> simp [hu, bannerOps, Config.bannerIdle]
  | ign b => cases h; simp [hq]
  | bwrite n =>
    cases h
    have hb : byteOps.length = 58 := rfl
    simp [operandCount, hb]
    bv_omega
  | bclk n =>
    cases h
    have hn := n.isLt
    simp [operandCount, pulseOps]
    omega
  | _ =>
    cases h
    simp [bannerOps, Config.bannerIdle, Config.bannerRaw, pulseOps, readSeqOps, readBitOps, Config.bitsPerByte]

/-! ### Micro-operations -/

/-- `mode` is written by `uMODE` alone, which records nothing (R21). -/
theorem State.perform_mode_eq (s t : State) (u : MicroOp) (h : s.perform u = some t) :
    t.mode = s.mode ∨ u = .mode t.mode ∧ t.trace = s.trace := by
  obtain ⟨_, _, rfl⟩ | ⟨_, rfl⟩ | ⟨_, rfl⟩ | ⟨_, _, rfl⟩ | ⟨_, _, rfl⟩ | ⟨_, rfl⟩ | ⟨_, rfl⟩ |
    ⟨_, _, _, rfl⟩ | ⟨_, _, _, rfl⟩ | ⟨_, rfl⟩ | ⟨_, _, _, _, rfl⟩ | ⟨m, rfl, rfl⟩ | ⟨_, rfl⟩ |
    ⟨_, _, _, rfl⟩ := s.perform_cases t u h <;> try exact .inl rfl
  exact .inr ⟨rfl, rfl⟩

/-- `cnt` is written by `uCNT0` and `uCNTx` alone (R22). -/
theorem State.perform_cnt_eq (s t : State) (u : MicroOp) (h : s.perform u = some t) :
    t.cnt = s.cnt ∨ (u = .cnt0 ∧ t.cnt = 0) ∨ (u = .cntX ∧ t.cnt.toNat ≤ 19) := by
  obtain ⟨_, _, rfl⟩ | ⟨_, rfl⟩ | ⟨_, rfl⟩ | ⟨_, _, rfl⟩ | ⟨_, _, rfl⟩ | ⟨_, rfl⟩ | ⟨_, rfl⟩ |
    ⟨_, _, _, rfl⟩ | ⟨_, _, _, rfl⟩ | ⟨_, rfl⟩ | ⟨_, _, _, _, rfl⟩ | ⟨_, _, rfl⟩ | ⟨rfl, rfl⟩ |
    ⟨_, rfl, hc, rfl⟩ := s.perform_cases t u h <;> try exact .inl rfl
  · exact .inr (.inl ⟨rfl, rfl⟩)
  · exact .inr (.inr ⟨rfl, hc⟩)

end Sys2Proof.Machine
end

section
/-! The settled statements about one step and one command. -/

namespace Sys2Proof.Proofs

open Sys2Proof Sys2Proof.Machine

/-- Settles O39, by the choice of the next work. -/
theorem stepKeepsInv : Obligations.StepKeepsInv :=
  fun _ _ hi h => hi.step h

/-- Settles O42: a fetch loads the whole of its command, a micro-operation takes one off the front, and `uMODE` brings the
mode its command leaves. -/
theorem stepStaysAtItsCommand : Obligations.StepStaysAtItsCommand := by
  intro s t hs h
  obtain ⟨hm, ⟨-, -, rfl⟩ | ⟨hq, b, rest, -, he⟩ | ⟨u, us, r, hq, hp, rfl⟩⟩ := step_cases s t h
  · exact hs
  · obtain ⟨hwf, htable, hbyte⟩ := commandOf_reads s.mode b hm
    obtain ⟨hcmd, -⟩ := exec_frame_own _ _ _ he
    refine .inr ⟨_, s.fetched b rest, t, hwf, hbyte.trans hcmd.symm, hq, he, ⟨[], rfl⟩, ?_⟩
    obtain hmode | ⟨c, hi, hmode⟩ := exec_mode _ _ _ he
    · exact .inl (hmode.trans htable.symm)
    · right; rw [hi, hmode]; rfl
  · obtain hnil | ⟨i, s0, t0, hwf, hbyte, hq0, he, ⟨done, hdone⟩, hmode⟩ := hs
    · simp [hq] at hnil
    rw [hq] at hdone
    obtain ⟨-, hcmd⟩ := s.perform_frame r u hp
    refine .inr ⟨i, s0, t0, hwf, hbyte.trans hcmd.symm, hq0, he, ⟨done ++ [u], by simpa using hdone⟩, ?_⟩
    obtain hsame | ⟨hu, -⟩ := s.perform_mode_eq r u hp
    · exact hmode.imp hsame.trans hsame.trans
    · have hmem : MicroOp.mode r.mode ∈ t0.uq := by simp [← hdone, ← hu]
      exact .inr (exec_loads_modeAfter i s0 t0 r.mode hq0 he hmem)

/-- Settles O28, by what `exec` writes for each command. -/
theorem execFrame : Obligations.ExecFrame := by
  intro i s t h
  obtain ⟨htrace, hrx, hclk, hdat, hsmp⟩ := exec_frame i s t h
  obtain ⟨hcmd, hwire, hdraws⟩ := exec_frame_own i s t h
  refine ⟨hrx, htrace, hclk, hdat, hsmp, hcmd, hwire, hdraws, fun hi => ?_, fun hi => ?_, fun hi => ?_⟩
  · exact (exec_mode i s t h).resolve_right fun ⟨b, hb, _⟩ => hi b hb
  · exact (exec_cnt i s t h).resolve_right fun ⟨hnul, _⟩ => hi hnul
  · exact (exec_sh i s t h).resolve_right fun ⟨hread, _⟩ => hi hread

/-- Settles O30, by the micro-operations each command loads. -/
theorem pinCommandsAreThese : Obligations.PinCommandsAreThese := by
  intro i s t hq h
  refine ⟨exec_loads_clk_iff i s t hq h, exec_loads_dat_iff i s t hq h, ?_, ?_⟩
  · rintro rfl
    cases h
    exact ⟨copies Config.bitsPerByte readBitOps ++ [.txSh], rfl, by simp [readBitOps]⟩
  · rw [exec_loads_samples i s t hq h]
    cases i <;> rfl

/-- Settles O31. -/
theorem loadIsBounded : Obligations.LoadIsBounded := by
  intro i s t hq h
  obtain ⟨hlen, -⟩ := exec_uq_loadable i s t hq h
  exact ⟨hlen, exec_uq_length_max i s t hq h, exec_loads_reads i s t hq h⟩

/-- Settles O36: between commands only `exec` of `ILL` writes `mode`, in a command only `uMODE` does. -/
theorem modeChangesOnlyHere : Obligations.ModeChangesOnlyHere := by
  intro s t h hne
  obtain ⟨hm, ⟨-, -, rfl⟩ | ⟨hq, b, rest, hr, he⟩ | ⟨u, us, r, hq, hp, rfl⟩⟩ := step_cases s t h
  · exact absurd rfl hne
  · obtain ⟨c, hi, hhalt⟩ := (exec_mode _ _ _ he).resolve_left hne
    obtain ⟨hraw, hill⟩ := illegalRaw_of_commandOf hm hi
    exact .inr ⟨hq, hraw, hhalt, b, rest, hr, hill⟩
  · obtain ⟨rfl, htrace⟩ := (s.perform_mode_eq r u hp).resolve_left hne
    exact .inl ⟨⟨us, hq⟩, htrace⟩

/-- Settles O37: between commands only `exec` of `NUL` writes `cnt`, in a command only `uCNT0` and `uCNTx` do. -/
theorem counterChangesOnlyHere : Obligations.CounterChangesOnlyHere := by
  intro s t h hne
  obtain ⟨hm, ⟨-, -, rfl⟩ | ⟨hq, b, rest, hr, he⟩ | ⟨u, us, r, hq, hp, rfl⟩⟩ := step_cases s t h
  · exact absurd rfl hne
  · obtain ⟨hi, hcnt⟩ := (exec_cnt _ _ _ he).resolve_left hne
    obtain ⟨hidle, rfl⟩ := eq_zero_of_commandOf hm hi
    exact .inl ⟨hidle, hq, ⟨rest, hr⟩, hcnt⟩
  · obtain ⟨rfl, hcnt⟩ | ⟨rfl, hcnt⟩ := (s.perform_cnt_eq r u hp).resolve_left hne
    · exact .inr (.inl ⟨⟨us, hq⟩, hcnt⟩)
    · exact .inr (.inr ⟨⟨us, hq⟩, hcnt⟩)

/-- Settles O1, by the fetch and what a byte reads as. -/
theorem stepRunsTheDecodedCommand : Obligations.StepRunsTheDecodedCommand := by
  intro s b rest i hq hr hd
  have hm : s.mode ≠ .halt := by
    intro hm
    simp [hm, decode] at hd
  rw [decode_cons s.mode b rest hm] at hd
  cases hd
  obtain ⟨hwf, htable, -⟩ := commandOf_reads s.mode b hm
  exact ⟨hwf, htable, step_fetch s b rest hm hq hr⟩

/-- Settles O38. -/
theorem resetMeetsTheInvariants : Obligations.ResetMeetsTheInvariants :=
  ⟨State.reset.hardReset_inv, ⟨rfl, rfl, .inl rfl⟩, .inl rfl⟩

end Sys2Proof.Proofs
end

section
/-! A sample, with the environment's answer where it has fixed one. -/

namespace Sys2Proof.Machine

/-- `uSMP` and `uSMPacc` (R27) take the same sample; the second shifts it into `sh` as well. -/
theorem State.perform_sample (s : State) : ∃ v, (∀ w ws, s.wire = w :: ws → v = w) ∧
    s.perform .smp = some { s with
      smp := v, wire := s.wire.tail, draws := s.draws + (1 - s.wire.length), trace := s.trace ++ [.smp v] } ∧
    s.perform .smpAcc = some { s with
      smp := v, sh := shiftIn v s.sh, wire := s.wire.tail, draws := s.draws + (1 - s.wire.length)
      trace := s.trace ++ [.smp v] } := by
  obtain ⟨v, hv, hd⟩ := s.datSample_spec
  exact ⟨v, hv, by simp only [State.perform, hd], by simp only [State.perform, hd]⟩

/-- A step at a sample whose level the environment has fixed takes that level (R58). -/
theorem step_sample (s : State) (u : MicroOp) (us : List MicroOp) (v : Level) (ws : List Level)
    (hm : s.mode ≠ .halt) (hq : s.uq = u :: us) (hu : u = .smp ∨ u = .smpAcc) (hw : s.wire = v :: ws) :
    ∃ t, step s = .next t ∧ t.smp = v ∧ t.uq = us ∧ t.wire = ws ∧ t.draws = s.draws ∧
      t.trace = s.trace ++ [.smp v] := by
  obtain ⟨w, hv, hsmp, hacc⟩ := s.perform_sample
  obtain rfl := hv v ws hw
  obtain rfl | rfl := hu
  · exact ⟨_, step_micro s _ _ us hm hq hsmp, rfl, rfl, by simp [hw], by simp [hw], rfl⟩
  · exact ⟨_, step_micro s _ _ us hm hq hacc, rfl, rfl, by simp [hw], by simp [hw], rfl⟩

end Sys2Proof.Machine
end

section
/-! The settled statement about the micro-operations. -/

namespace Sys2Proof.Proofs

open Sys2Proof Sys2Proof.Machine

/-- Settles O2: `perform` for each micro-operation, and the state it gives with `uq` one shorter. -/
theorem stepPerformsEachMicroOperation : Obligations.StepPerformsEachMicroOperation := by
  intro s us hm
  obtain ⟨v, hv, hsmp, hacc⟩ := s.perform_sample
  refine ⟨fun b hq => ?_, fun hq => ?_, fun hq => ?_, fun l hq => ?_, fun l hq => ?_, fun hq => ?_, fun hq => ?_,
    fun hq => ⟨v, hv, ?smp⟩, fun hq => ⟨v, hv, ?smpAcc⟩, fun hq => ?_, fun b rest hq hr => ?rxSh,
    step_stalled s us hm, fun m hq => ?_, fun hq => ?_, fun hq => ?cntX⟩
  case smp => rw [step_micro s _ _ us hm hq hsmp]; rfl
  case smpAcc => rw [step_micro s _ _ us hm hq hacc]; rfl
  case rxSh =>
    have hp : s.perform .rxSh = some { s with rx := rest, sh := b, trace := s.trace ++ [.rx b] } := by
      simp only [State.perform, s.rxRead_cons b rest hr]
    rw [step_micro s _ _ us hm hq hp]; rfl
  case cntX => exact ⟨_, cntDrawn_le _, step_micro s _ _ us hm hq rfl⟩
  all_goals exact step_micro s _ _ us hm hq rfl

end Sys2Proof.Proofs
end

section
/-! What no run reads: two runs side by side, from states that differ in contents nothing shows. -/

namespace Sys2Proof.Machine

/-- What one run can do step by step, a related run can, it can do in `k` steps. -/
theorem runSteps_simulates {R : State → State → Prop}
    (hstep : ∀ s s' t, R s s' → step s = .next t → ∃ t', step s' = .next t' ∧ R t t')
    (k : Nat) (s s' t : State) (hR : R s s') (h : runSteps k s = .next t) :
    ∃ t', runSteps k s' = .next t' ∧ R t t' := by
  induction k generalizing s s' with
  | zero => cases h; exact ⟨s', rfl, hR⟩
  | succ k ih =>
    simp only [runSteps] at h
    split at h
    · rename_i r hr
      obtain ⟨r', hr', hRr⟩ := hstep s s' r hR hr
      rw [runSteps_next k s' r' hr']
      exact ih r r' hRr h
    · cases h
    · cases h

/-- The states agree in every element but the latches, `sh`, `smp` and `cmd`, and in each of these where the proposition
for it holds: `a` for `sh`, `b` for `smp`, `c` for `cmd`, `l` for the latches. -/
structure State.Alike (a b c l : Prop) (s s' : State) : Prop where
  mode : s.mode = s'.mode
  cnt : s.cnt = s'.cnt
  uq : s.uq = s'.uq
  rx : s.rx = s'.rx
  trace : s.trace = s'.trace
  wire : s.wire = s'.wire
  draws : s.draws = s'.draws
  sh : a → s.sh = s'.sh
  smp : b → s.smp = s'.smp
  cmd : c → s.cmd = s'.cmd
  clk : l → s.clk = s'.clk
  dat : l → s.dat = s'.dat

section
variable {a b c l : Prop} {s s' t : State}

/-- A micro-operation that lets the contents of `sh` be seen: sent or driven (R27). -/
def MicroOp.showsSh : MicroOp → Bool
  | .txSh => true
  | .datSh => true
  | _ => false

/-- A micro-operation that lets the content of `smp` be seen. -/
def MicroOp.showsSmp : MicroOp → Bool
  | .txSmp => true
  | _ => false

/-- A micro-operation that gives `sh` a content of its own, whatever it held. -/
def MicroOp.setsSh : MicroOp → Bool
  | .rxSh => true
  | _ => false

/-- A micro-operation that gives `smp` a content of its own. -/
def MicroOp.setsSmp : MicroOp → Bool
  | .smp => true
  | .smpAcc => true
  | _ => false

theorem State.Alike.emit (h : s.Alike a b c l s') (e : Event) : (s.emit e).Alike a b c l (s'.emit e) :=
  { h with trace := congrArg (· ++ _) h.trace }

theorem State.Alike.load (h : s.Alike a b c l s') (us : List MicroOp) : (s.load us).Alike a b c l (s'.load us) :=
  { h with uq := rfl }

/-- Alike states fetch a byte alike, and then agree in `cmd`. -/
theorem State.Alike.fetched (h : s.Alike a b c l s') (x : Byte) (rest : List Byte) :
    (s.fetched x rest).Alike a b True l (s'.fetched x rest) :=
  { h.emit (.rx x) with rx := rfl, cmd := fun _ => rfl }

/-- Alike states get the same sample, and stay alike. -/
theorem State.Alike.datSample (h : s.Alike a b c l s') :
    s.datSample.1 = s'.datSample.1 ∧ s.datSample.2.Alike a b c l s'.datSample.2 := by
  cases hw : s.wire with
  | nil =>
    simp only [State.datSample, hw, ← h.wire, ← h.draws, ← h.trace]
    exact ⟨trivial, { h with wire := rfl, draws := rfl, trace := rfl }⟩
  | cons v ws =>
    simp only [State.datSample, hw, ← h.wire, ← h.trace]
    exact ⟨trivial, { h with wire := rfl, trace := rfl }⟩

/-- Alike states perform a micro-operation alike, if they agree in what it shows. -/
theorem State.Alike.perform (h : s.Alike a b c l s') {u : MicroOp} (hsh : u.showsSh = true → a)
    (hsmp : u.showsSmp = true → b) (hp : s.perform u = some t) :
    ∃ t', s'.perform u = some t' ∧ t.Alike a b c l t' ∧
      (u.setsSh = true → t.sh = t'.sh) ∧ (u.setsSmp = true → t.smp = t'.smp) := by
  cases u with
  | tx x => cases hp; exact ⟨_, rfl, h.emit _, nofun, nofun⟩
  | txSh => cases hp; exact ⟨_, rfl, h.sh (hsh rfl) ▸ h.emit _, nofun, nofun⟩
  | txSmp => cases hp; exact ⟨_, rfl, h.smp (hsmp rfl) ▸ h.emit _, nofun, nofun⟩
  | clk v => cases hp; exact ⟨_, rfl, { h.emit (.clk v) with clk := fun _ => rfl }, nofun, nofun⟩
  | dat v => cases hp; exact ⟨_, rfl, { h.emit (.dat v) with dat := fun _ => rfl }, nofun, nofun⟩
  | datSh =>
    cases hp
    refine ⟨_, rfl, ?_, nofun, nofun⟩
    rw [h.sh (hsh rfl)]
    exact { h.emit (.dat (operandLevel s'.sh)) with dat := fun _ => rfl }
  | dly => cases hp; exact ⟨_, rfl, h.emit _, nofun, nofun⟩
  | smp =>
    cases hp
    obtain ⟨hv, hr⟩ := h.datSample
    exact ⟨_, rfl, { hr with smp := fun _ => hv }, nofun, fun _ => hv⟩
  | smpAcc =>
    cases hp
    obtain ⟨hv, hr⟩ := h.datSample
    exact ⟨_, rfl, { hr with smp := fun _ => hv, sh := fun ha => congrArg₂ shiftIn hv (h.sh ha) }, nofun, fun _ => hv⟩
  | shr => cases hp; exact ⟨_, rfl, { h with sh := fun ha => congrArg shiftRight (h.sh ha) }, nofun, nofun⟩
  | rxSh =>
    cases hr : s.rx with
    | nil => simp [(s.perform_eq_none .rxSh).2 ⟨rfl, hr⟩] at hp
    | cons x rest =>
      simp only [State.perform, s.rxRead_cons x rest hr, s'.rxRead_cons x rest (h.rx ▸ hr)] at hp ⊢
      cases hp
      exact ⟨_, rfl, { h.emit (.rx x) with rx := rfl, sh := fun _ => rfl }, fun _ => rfl, nofun⟩
  | mode m => cases hp; exact ⟨_, rfl, { h with mode := rfl }, nofun, nofun⟩
  | cnt0 => cases hp; exact ⟨_, rfl, { h with cnt := rfl }, nofun, nofun⟩
  | cntX =>
    cases hp
    exact ⟨_, rfl, { h with cnt := by simp [h.draws, h.trace], draws := congrArg (· + 1) h.draws }, nofun, nofun⟩

/-- Alike states execute a command alike. -/
theorem State.Alike.exec (h : s.Alike a b c l s') {i : Instr} (he : exec i s = .next t) :
    ∃ t', Machine.exec i s' = .next t' ∧ t.Alike a b c l t' := by
  cases i with
  | nul =>
    have hcounted : ({ s with cnt := cntNext s.cnt } : State).Alike a b c l { s' with cnt := cntNext s'.cnt } :=
      { h with cnt := congrArg cntNext h.cnt }
    simp only [Machine.exec, execNul, ← h.cnt] at he hcounted ⊢
    split at he <;> rename_i ha <;> cases he
    · exact ⟨_, if_pos ha, hcounted.load _⟩
    · exact ⟨_, if_neg ha, hcounted⟩
  | ign x => cases he; exact ⟨s', rfl, h⟩
  | ill x => cases he; exact ⟨_, rfl, { h with mode := rfl, uq := rfl }⟩
  | rdbyte => cases he; exact ⟨_, rfl, { h with sh := fun _ => rfl, uq := rfl }⟩
  | _ => cases he; exact ⟨_, rfl, h.load _⟩

end

/-! ### What is still to be shown -/

/-- Some pending micro-operation shows a content before one sets it afresh. -/
def needs (shows sets : MicroOp → Bool) : List MicroOp → Bool
  | [] => false
  | u :: us => shows u || (!sets u && needs shows sets us)

/-- The content of `sh` is still to be seen. -/
abbrev needsSh : List MicroOp → Bool := needs MicroOp.showsSh MicroOp.setsSh

/-- The content of `smp` is still to be seen. -/
abbrev needsSmp : List MicroOp → Bool := needs MicroOp.showsSmp MicroOp.setsSmp

theorem needs_eq_false {shows : MicroOp → Bool} (sets : MicroOp → Bool) {us : List MicroOp}
    (h : ∀ u ∈ us, shows u = false) : needs shows sets us = false := by
  induction us with
  | nil => rfl
  | cons u us ih =>
    obtain ⟨hu, hus⟩ := List.forall_mem_cons.1 h
    simp [needs, hu, ih hus]

theorem needs_of_tail {shows sets : MicroOp → Bool} {u : MicroOp} {us : List MicroOp}
    (h : needs shows sets us = true) : sets u = true ∨ needs shows sets (u :: us) = true := by
  cases hu : sets u <;> simp [needs, hu, h]

/-- No command but `RDBYTE`, which clears it (R172), shows what `sh` held at its fetch: `BWRITE` reads each data byte
before it shifts it out (R24). -/
theorem exec_needsSh (i : Instr) (s t : State) (hq : s.uq = []) (h : exec i s = .next t) (hi : i ≠ .rdbyte) :
    needsSh t.uq = false := by
  cases i with
  | rdbyte => exact absurd rfl hi
  | nul => obtain hu | hu := exec_nul_uq s t hq h <;> rw [hu] <;> rfl
  | ign b => cases h; rw [hq]; rfl
  | bclk n =>
    cases h
    have hpulse : ∀ u ∈ pulseOps, u.showsSh = false := by decide
    exact needs_eq_false _ (List.forall_mem_append.2 ⟨fun u hu => hpulse u (mem_of_mem_copies hu), by decide⟩)
  | _ => cases h; rfl

/-- No command shows what `smp` held at its fetch: `RDBIT` samples before it replies (R25). -/
theorem exec_needsSmp (i : Instr) (s t : State) (hq : s.uq = []) (h : exec i s = .next t) :
    needsSmp t.uq = false := by
  cases i with
  | nul => obtain hu | hu := exec_nul_uq s t hq h <;> rw [hu] <;> rfl
  | ign b => cases h; rw [hq]; rfl
  | bclk n =>
    cases h
    have hpulse : ∀ u ∈ pulseOps, u.showsSmp = false := by decide
    exact needs_eq_false _ (List.forall_mem_append.2 ⟨fun u hu => hpulse u (mem_of_mem_copies hu), by decide⟩)
  | bwrite n =>
    cases h
    have hbyte : ∀ u ∈ byteOps, u.showsSmp = false := by decide
    exact needs_eq_false _ (List.forall_mem_cons.2 ⟨rfl, fun u hu => hbyte u (mem_of_mem_copies hu)⟩)
  | _ => cases h; rfl

/-- The states are alike, and agree in `sh` and in `smp` where that content is still to be seen. -/
abbrev State.LookAlike (a b c l : Prop) (s s' : State) : Prop :=
  s.Alike (a ∨ needsSh s.uq = true) (b ∨ needsSmp s.uq = true) c l s'

theorem State.LookAlike.of_needs {a b P Q c l : Prop} {t t' : State} (h : t.Alike (a ∨ P) (b ∨ Q) c l t')
    (hsh : needsSh t.uq = true → t.sh = t'.sh) (hsmp : needsSmp t.uq = true → t.smp = t'.smp) :
    t.LookAlike a b c l t' :=
  { h with sh := Or.rec (h.sh ∘ .inl) hsh, smp := Or.rec (h.smp ∘ .inl) hsmp }

/-- States that look alike step alike (R23 to R27). -/
theorem State.LookAlike.step {a b c l : Prop} {s s' t : State} (h : s.LookAlike a b c l s') (hs : step s = .next t) :
    ∃ t', Machine.step s' = .next t' ∧ t.LookAlike a b c l t' := by
  obtain ⟨hm, ⟨hr, hq, rfl⟩ | ⟨hq, x, rest, hr, he⟩ | ⟨u, us, r, hq, hp, rfl⟩⟩ := step_cases s t hs
  · refine ⟨s', ?_, h⟩
    obtain hq | ⟨us, hq⟩ := hq
    · exact step_wait s' (h.mode ▸ hm) (h.uq ▸ hq) (h.rx ▸ hr)
    · exact step_stalled s' us (h.mode ▸ hm) (h.uq ▸ hq) (h.rx ▸ hr)
  · obtain ⟨t', he', ht⟩ := (h.fetched x rest).exec he
    rw [h.mode] at he'
    refine ⟨t', (step_fetch s' x rest (h.mode ▸ hm) (h.uq ▸ hq) (h.rx ▸ hr)).trans he', ?_⟩
    refine .of_needs { ht with cmd := fun _ => ht.cmd trivial } (fun hn => ?_) (fun hn => ?_)
    · by_cases hi : commandOf s.mode x = .rdbyte
      · rw [← h.mode] at he'
        rw [hi] at he he'
        cases he; cases he'; rfl
      · simp [exec_needsSh _ (s.fetched x rest) t hq he hi] at hn
    · simp [exec_needsSmp _ (s.fetched x rest) t hq he] at hn
  · have hsh : u.showsSh = true → a ∨ needsSh s.uq = true := fun hu => .inr (by simp [hq, needs, hu])
    have hsmp : u.showsSmp = true → b ∨ needsSmp s.uq = true := fun hu => .inr (by simp [hq, needs, hu])
    obtain ⟨r', hp', ht, hsetSh, hsetSmp⟩ := Alike.perform h hsh hsmp hp
    refine ⟨r'.load us, step_micro s' r' u us (h.mode ▸ hm) (h.uq ▸ hq) hp', ?_⟩
    refine .of_needs (ht.load us) (fun hn => ?_) (fun hn => ?_)
    · exact (needs_of_tail hn).elim hsetSh fun hneed => ht.sh (.inr (hq ▸ hneed))
    · exact (needs_of_tail hn).elim hsetSmp fun hneed => ht.smp (.inr (hq ▸ hneed))

/-- States that agree in what is shown and in the latches differ in `sh`, `smp` and `cmd` at most. -/
theorem State.Alike.eq_withLeftover {a b c : Prop} {s s' : State} (h : s.Alike a b c True s') :
    s' = { s with sh := s'.sh, smp := s'.smp, cmd := s'.cmd } := by
  rw [h.mode, h.cnt, h.uq, h.rx, h.trace, h.wire, h.draws, h.clk trivial, h.dat trivial]

/-- States that agree in `sh`, `smp` and `cmd` as well differ in the latches at most. -/
theorem State.Alike.eq_withLatches {a b l : Prop} {s s' : State} (h : s.Alike a b True l s') (ha : a)
    (hb : b) :
    s' = { s with clk := s'.clk, dat := s'.dat } := by
  rw [h.mode, h.cnt, h.uq, h.rx, h.trace, h.wire, h.draws, h.sh ha, h.smp hb, h.cmd trivial]

end Sys2Proof.Machine
end

section
/-! The settled statements about what no run reads. -/

namespace Sys2Proof.Proofs

open Sys2Proof Sys2Proof.Machine

/-- Settles O43: states that agree in all but the latches look alike, and go on doing so. -/
theorem latchesAreNeverRead : Obligations.LatchesAreNeverRead := by
  intro k s t c d h
  have hs : s.LookAlike True True True False { s with clk := c, dat := d } :=
    ⟨rfl, rfl, rfl, rfl, rfl, rfl, rfl, fun _ => rfl, fun _ => rfl, fun _ => rfl, nofun, nofun⟩
  obtain ⟨t', ht', hlook⟩ := runSteps_simulates (fun _ _ _ => State.LookAlike.step) k s _ t hs h
  exact ⟨t'.clk, t'.dat, hlook.eq_withLatches (.inl trivial) (.inl trivial) ▸ ht'⟩

/-- Settles O44: between commands neither content is still to be seen, so states that agree in the rest look alike, and
go on doing so. -/
theorem leftoverContentsNeverShow : Obligations.LeftoverContentsNeverShow := by
  intro k s t x z y hq h
  have hs : s.LookAlike False False False True { s with sh := x, smp := y, cmd := z } :=
    ⟨rfl, rfl, rfl, rfl, rfl, rfl, rfl, by simp [hq, needs], by simp [hq, needs], nofun, fun _ => rfl, fun _ => rfl⟩
  obtain ⟨t', ht', hlook⟩ := runSteps_simulates (fun _ _ _ => State.LookAlike.step) k s _ t hs h
  exact ⟨t'.sh, t'.smp, t'.cmd, hlook.eq_withLeftover ▸ ht'⟩

end Sys2Proof.Proofs
end

section
/-! The serial streams at one step and at one clock edge. -/

namespace Sys2Proof.Machine

/-! ### The micro-operation at the head -/

theorem State.headOp_of_cons {s : State} {u : MicroOp} {us : List MicroOp} (hm : s.mode ≠ .halt) (hq : s.uq = u :: us) :
    s.headOp = some u := by
  cases h : s.mode <;> simp_all [State.headOp]

theorem State.headOp_of_nil {s : State} (hq : s.uq = []) : s.headOp = none := by
  cases h : s.mode <;> simp [State.headOp, h, hq]

/-- The sequencer is at a micro-operation outside HALT, at the head of `uq`. -/
theorem State.headOp_eq_some {s : State} {u : MicroOp} :
    s.headOp = some u ↔ s.mode ≠ .halt ∧ ∃ us, s.uq = u :: us := by
  constructor
  · intro h
    cases hm : s.mode <;> simp_all [State.headOp, List.head?_eq_some_iff]
  · rintro ⟨hm, us, hq⟩
    exact headOp_of_cons hm hq

/-- `rx_ready_o` said of the state: a fetch, or `uRXsh` (R51). -/
theorem State.rxReadyO_iff {s : State} :
    s.rxReadyO = true ↔ s.mode ≠ .halt ∧ (s.uq = [] ∨ ∃ us, s.uq = .rxSh :: us) := by
  cases hm : s.mode <;> cases hq : s.uq <;> simp [State.rxReadyO, hm, hq]

/-! ### What a step takes from the serial input and puts on the serial output -/

/-- The events `es` that lead from `s` to `t` send the byte pending at the port and read the byte the port offers where it
is ready, and nothing else of either stream. -/
structure State.Streams (s t : State) (es : List Event) : Prop where
  trace : t.trace = s.trace ++ es
  atMostOne : es.length ≤ 1
  tx : txBytes es = s.txDataO.toList
  rx : rxBytes es = if s.rxReadyO then s.rxDataI.toList else []
  rest : rxBytes es ++ t.rx = s.rx

theorem State.perform_streams (s t : State) (u : MicroOp) (us : List MicroOp) (hm : s.mode ≠ .halt) (hq : s.uq = u :: us)
    (h : s.perform u = some t) : ∃ es, s.Streams t es := by
  have hhead := State.headOp_of_cons hm hq
  have hready : s.rxReadyO = (u == .rxSh) := by
    cases hmode : s.mode <;> simp_all [State.rxReadyO]
  obtain ⟨_, rfl, rfl⟩ | ⟨rfl, rfl⟩ | ⟨rfl, rfl⟩ | ⟨_, rfl, rfl⟩ | ⟨_, rfl, rfl⟩ | ⟨rfl, rfl⟩ | ⟨rfl, rfl⟩ |
    ⟨_, rfl, _, rfl⟩ | ⟨_, rfl, _, rfl⟩ | ⟨rfl, rfl⟩ | ⟨b, rest, rfl, hr, rfl⟩ | ⟨_, rfl, rfl⟩ | ⟨rfl, rfl⟩ |
    ⟨_, rfl, _, rfl⟩ := s.perform_cases t u h <;>
    try exact ⟨[_], rfl, le_rfl, by rw [State.txDataO, hhead]; rfl, by rw [hready]; rfl, rfl⟩
  pick_goal 2 -- `uRXsh`; the others left are silent
  · refine ⟨[.rx b], rfl, le_rfl, by rw [State.txDataO, hhead]; rfl, ?_, hr.symm⟩
    rw [hready, State.rxDataI, hr]; rfl
  all_goals
    exact ⟨[], (List.append_nil _).symm, Nat.zero_le 1, by rw [State.txDataO, hhead]; rfl, by rw [hready]; rfl, rfl⟩

/-- Every step moves the bytes its ports show (R28, R30, R51, R52). -/
theorem step_streams (s t : State) (h : step s = .next t) : ∃ es, s.Streams t es := by
  obtain ⟨hm, ⟨hr, hq, rfl⟩ | ⟨hq, b, rest, hr, he⟩ | ⟨u, us, r, hq, hp, rfl⟩⟩ := step_cases s t h
  · have htx : t.txDataO = none := by
      obtain hq | ⟨us, hq⟩ := hq
      · simp [State.txDataO, State.headOp_of_nil hq]
      · simp [State.txDataO, State.headOp_of_cons hm hq]
    exact ⟨[], by simp, by simp, by simp [htx, txBytes], by simp [State.rxDataI, hr, rxBytes], by simp [rxBytes]⟩
  · obtain ⟨htrace, hrx, -⟩ := exec_frame _ _ _ he
    have hready : s.rxReadyO = true := State.rxReadyO_iff.2 ⟨hm, .inl hq⟩
    exact ⟨[.rx b], htrace, le_rfl, by simp [State.txDataO, State.headOp_of_nil hq, txBytes],
      by simp [hready, State.rxDataI, hr, rxBytes], by simp [hrx, State.fetched, hr, rxBytes]⟩
  · obtain ⟨es, hs⟩ := s.perform_streams r u us hm hq hp
    exact ⟨es, hs.trace, hs.atMostOne, hs.tx, hs.rx, hs.rest⟩

theorem eq_of_rxBytes_eq {es : List Event} {b : Byte} (hl : es.length ≤ 1) (h : rxBytes es = [b]) : es = [.rx b] := by
  match es, hl, h with
  | [], _, h => simp [rxBytes] at h
  | [e], _, h => cases e <;> simp_all [rxBytes]

theorem eq_of_txBytes_eq {es : List Event} {b : Byte} (hl : es.length ≤ 1) (h : txBytes es = [b]) : es = [.tx b] := by
  match es, hl, h with
  | [], _, h => simp [txBytes] at h
  | [e], _, h => cases e <;> simp_all [txBytes]

/-- Where the port offers a byte and is ready, that byte is read and nothing else is recorded. -/
theorem State.Streams.consumes {s t : State} {es : List Event} (h : s.Streams t es) {b : Byte} {rest : List Byte}
    (hr : s.rx = b :: rest) (hready : s.rxReadyO = true) : t.rx = rest ∧ t.trace = s.trace ++ [.rx b] := by
  have hes : es = [.rx b] := eq_of_rxBytes_eq h.atMostOne (by rw [h.rx, hready, State.rxDataI, hr]; rfl)
  subst hes
  have hrest : b :: t.rx = b :: rest := h.rest.trans hr
  exact ⟨List.tail_eq_of_cons_eq hrest, h.trace⟩

/-- Where a byte is pending, it is sent and nothing else is recorded. -/
theorem State.Streams.sends {s t : State} {es : List Event} (h : s.Streams t es) {b : Byte} (hb : s.txDataO = some b) :
    t.rx = s.rx ∧ t.trace = s.trace ++ [.tx b] := by
  have hes : es = [.tx b] := eq_of_txBytes_eq h.atMostOne (by rw [h.tx, hb]; rfl)
  subst hes
  exact ⟨h.rest, h.trace⟩

/-- Where the port offers no byte or is not ready, none is read. -/
theorem State.Streams.consumes_none {s t : State} {es : List Event} (h : s.Streams t es)
    (hport : (s.rxValidI && s.rxReadyO) = false) : t.rx = s.rx ∧ rxBytes t.trace = rxBytes s.trace := by
  have hes : rxBytes es = [] := by
    rw [h.rx]
    split
    next hready =>
      have hr : s.rx = [] := by simpa [hready, State.rxValidI] using hport
      rw [State.rxDataI, hr]; rfl
    next => rfl
  have hrest := h.rest
  rw [hes] at hrest
  exact ⟨hrest, by rw [h.trace, rxBytes_append, hes, List.append_nil]⟩

/-- Where no byte is pending, none is sent. -/
theorem State.Streams.sends_none {s t : State} {es : List Event} (h : s.Streams t es) (hport : s.txValidO = false) :
    txBytes t.trace = txBytes s.trace := by
  have hnone : s.txDataO = none := by simpa [State.txValidO] using hport
  rw [h.trace, txBytes_append, h.tx, hnone]
  exact List.append_nil _

/-! ### Runs without reset -/

/-- The bytes consumed so far, then those not read yet. -/
def State.received (s : State) : List Byte := rxBytes s.trace ++ s.rx

/-- An action that is no reset keeps the trace, and keeps what was received but for the byte it sends (R28). -/
theorem act_received (a : Action) (s t : State) (ha : a ≠ .reset) (h : act a s = .next t) :
    t.received = s.received ++ sentBytes [a] ∧ s.trace <+: t.trace := by
  cases a with
  | step =>
    obtain ⟨es, hs⟩ := step_streams s t h
    refine ⟨?_, es, hs.trace.symm⟩
    simp [State.received, hs.trace, hs.rest, sentBytes]
  | send b => cases h; simp [State.received, sentBytes]
  | answer v => cases h; simp [State.received, sentBytes]
  | reset => exact absurd rfl ha

theorem runActions_received (as : List Action) (s t : State) (ha : .reset ∉ as) (h : runActions as s = .next t) :
    t.received = s.received ++ sentBytes as ∧ s.trace <+: t.trace := by
  induction as generalizing s with
  | nil => cases h; simp [sentBytes]
  | cons a as ih =>
    simp only [runActions] at h
    split at h
    · rename_i r hr
      simp only [List.mem_cons, not_or] at ha
      obtain ⟨hrecv, hpre⟩ := act_received a s r (Ne.symm ha.1) hr
      obtain ⟨hrecv', hpre'⟩ := ih r ha.2 h
      refine ⟨?_, hpre.trans hpre'⟩
      rw [hrecv', hrecv, List.append_assoc, sentBytes, sentBytes, sentBytes, ← List.filterMap_append]
      rfl
    · cases h
    · cases h

/-! ### A clock edge -/

/-- `data_i` is put before the answers already fixed, where the step samples. -/
theorem State.withDataI_eq (s : State) (v : Level) :
    s.withDataI v = { s with wire := if s.samples then v :: s.wire else s.wire } := by
  simp only [State.withDataI]
  split <;> rfl

/-- With no byte and no hold to wait for, the sequencer takes its step. -/
theorem cycle_steps {p : PortsIn} {c : Clocked} (hrst : p.rst = false)
    (htx : c.seq.txValidO = true → p.txReady = true) (hdly : c.seq.atHold = true → p.dlyDone = true) :
    cycle p c = clockedNext (step (c.seq.withDataI p.dataI)) := by
  have htx' : (c.seq.txValidO && !p.txReady) = false := by simpa using htx
  have hdly' : (c.seq.atHold && !p.dlyDone) = false := by simpa using hdly
  simp [cycle, hrst, htx', hdly']

theorem clockedNext_eq_next {o : Host.Outcome State Fault Refusal} {d : Clocked} (h : clockedNext o = .next d) :
    ∃ t, o = .next t ∧ d = ⟨t, false⟩ := by
  cases o <;> cases h
  exact ⟨_, rfl, rfl⟩

/-- Everything a clock edge can do: reset, wait for a byte to be taken or a hold to be over, or step. -/
theorem cycle_cases {p : PortsIn} {c d : Clocked} (h : cycle p c = .next d) :
    (p.rst = true ∧ d = clockedReset c.seq) ∨
    (p.rst = false ∧ c.seq.txValidO = true ∧ p.txReady = false ∧ d = c) ∨
    (p.rst = false ∧ c.seq.atHold = true ∧ p.dlyDone = false ∧ d = { c with asked := true }) ∨
    (p.rst = false ∧ (c.seq.txValidO = true → p.txReady = true) ∧
      ∃ t, step (c.seq.withDataI p.dataI) = .next t ∧ d = ⟨t, false⟩) := by
  unfold cycle at h
  split at h
  next hrst => cases h; exact .inl ⟨hrst, rfl⟩
  next hrst =>
    have hrst : p.rst = false := by simpa using hrst
    split at h
    next htx =>
      obtain ⟨hvalid, hready⟩ : c.seq.txValidO = true ∧ p.txReady = false := by simpa using htx
      cases h; exact .inr (.inl ⟨hrst, hvalid, hready, rfl⟩)
    next htx =>
      split at h
      next hdly =>
        obtain ⟨hhold, hdone⟩ : c.seq.atHold = true ∧ p.dlyDone = false := by simpa using hdly
        cases h; exact .inr (.inr (.inl ⟨hrst, hhold, hdone, rfl⟩))
      next => exact .inr (.inr (.inr ⟨hrst, by simpa using htx, clockedNext_eq_next h⟩))

/-- At a hold no byte is pending. -/
theorem State.txValidO_of_atHold {s : State} (h : s.atHold = true) : s.txValidO = false := by
  have hhead : s.headOp = some .dly := by simpa [State.atHold] using h
  simp [State.txValidO, State.txDataO, hhead]

/-- Where a byte is read none is pending and the sequencer is at no hold. -/
theorem State.of_rxReadyO {s : State} (h : s.rxReadyO = true) : s.txValidO = false ∧ s.atHold = false := by
  obtain ⟨hm, hq | ⟨us, hq⟩⟩ := State.rxReadyO_iff.1 h
  · simp [State.txValidO, State.txDataO, State.atHold, State.headOp_of_nil hq]
  · simp [State.txValidO, State.txDataO, State.atHold, State.headOp_of_cons hm hq]

/-- With a byte pending the sequencer is at no hold, and not halted. -/
theorem State.of_txValidO {s : State} (h : s.txValidO = true) : s.atHold = false ∧ s.mode ≠ .halt := by
  refine ⟨?_, fun hm => ?_⟩
  · by_contra hhold
    rw [State.txValidO_of_atHold (Bool.eq_true_of_not_eq_false hhold)] at h
    exact Bool.false_ne_true h
  · simp [State.txValidO, State.txDataO, State.headOp, hm] at h

/-- `data_i` is no part of the serial streams: a step that it answers moves the bytes the ports show. -/
theorem step_withDataI_streams {s t : State} {v : Level} (h : step (s.withDataI v) = .next t) : ∃ es, s.Streams t es := by
  obtain ⟨es, hs⟩ := step_streams _ t h
  rw [State.withDataI_eq] at hs
  exact ⟨es, hs.trace, hs.atMostOne, hs.tx, hs.rx, hs.rest⟩

/-- A clock edge with nothing to wait for, outside HALT, moves the bytes the ports show. -/
theorem cycle_streams {p : PortsIn} {c : Clocked} (hm : c.seq.mode ≠ .halt) (hrst : p.rst = false)
    (htx : c.seq.txValidO = true → p.txReady = true) (hdly : c.seq.atHold = true → p.dlyDone = true) :
    ∃ t es, cycle p c = .next ⟨t, false⟩ ∧ c.seq.Streams t es := by
  have hmode : (c.seq.withDataI p.dataI).mode ≠ .halt := by rwa [State.withDataI_eq]
  obtain ⟨t, ht⟩ := step_next_of_ne_halt _ hmode
  obtain ⟨es, hs⟩ := step_withDataI_streams ht
  exact ⟨t, es, by rw [cycle_steps hrst htx hdly, ht, clockedNext], hs⟩

/-- Where the sequencer samples, `data_i` is the level its step takes. -/
theorem step_withDataI_sample {s : State} (v : Level) (h : s.samples = true) :
    ∃ t, step (s.withDataI v) = .next t ∧ t.smp = v ∧ t.uq = s.uq.tail ∧ t.wire = s.wire ∧ t.draws = s.draws ∧
      t.trace = s.trace ++ [.smp v] := by
  obtain ⟨u, hu, hsmp⟩ : ∃ u, s.headOp = some u ∧ (u = .smp ∨ u = .smpAcc) := by
    have hhead : s.headOp = some .smp ∨ s.headOp = some .smpAcc := by simpa [State.samples] using h
    exact hhead.elim (⟨_, ·, .inl rfl⟩) (⟨_, ·, .inr rfl⟩)
  obtain ⟨hm, us, hq⟩ := State.headOp_eq_some.1 hu
  have htail : s.uq.tail = us := by rw [hq]; rfl
  rw [State.withDataI_eq, h, htail]
  exact step_sample { s with wire := v :: s.wire } u us v s.wire hm hq hsmp rfl

end Sys2Proof.Machine
end

section
/-! The settled statements about runs without reset and about the ports. -/

namespace Sys2Proof.Proofs

open Sys2Proof Sys2Proof.Machine

/-- Settles O45: each action keeps what was received, but for the byte it sends. -/
theorem serialInputIsLossless : Obligations.SerialInputIsLossless := by
  intro as s t ha h
  obtain ⟨hrecv, es, hes⟩ := runActions_received as s t ha h
  exact ⟨hrecv, es, hes.symm⟩

/-- Settles O49: where a port's handshake meets, the cycle is a step that moves the byte; a cycle that waits moves none. -/
theorem serialPortsMoveOneByte : Obligations.SerialPortsMoveOneByte := by
  intro c p hrst
  refine ⟨fun hvalid hready => ?_, fun hvalid hready => ?_, fun d hd => ?_⟩
  · obtain ⟨b, rest, hr⟩ : ∃ b rest, c.seq.rx = b :: rest :=
      List.exists_cons_of_ne_nil (by simpa [State.rxValidI] using hvalid)
    obtain ⟨hm, -⟩ := State.rxReadyO_iff.1 hready
    obtain ⟨htx, hhold⟩ := State.of_rxReadyO hready
    obtain ⟨t, es, hc, hs⟩ := cycle_streams (p := p) hm hrst (by simp [htx]) (by simp [hhold])
    obtain ⟨hrx, htrace⟩ := hs.consumes hr hready
    exact ⟨b, t, by simp [State.rxDataI, hr], hc, by simp [hrx, hr], htrace⟩
  · obtain ⟨b, hb⟩ := Option.isSome_iff_exists.1 hvalid
    obtain ⟨hhold, hm⟩ := State.of_txValidO hvalid
    obtain ⟨t, es, hc, hs⟩ := cycle_streams hm hrst (fun _ => hready) (by simp [hhold])
    exact ⟨b, t, hb, hc, hs.sends hb⟩
  · obtain ⟨hreset, -⟩ | ⟨-, -, -, rfl⟩ | ⟨-, -, -, rfl⟩ | ⟨-, htx, t, ht, rfl⟩ := cycle_cases hd
    · simp [hrst] at hreset
    · exact ⟨fun _ => ⟨rfl, rfl⟩, fun _ => rfl⟩
    · exact ⟨fun _ => ⟨rfl, rfl⟩, fun _ => rfl⟩
    · obtain ⟨es, hs⟩ := step_withDataI_streams ht
      refine ⟨hs.consumes_none, fun hport => hs.sends_none ?_⟩
      cases hvalid : c.seq.txValidO with
      | false => rfl
      | true => simp [hvalid, htx hvalid] at hport

/-- Settles O50: only a clock edge that waits for a hold sets `asked`. -/
theorem clockEdgesKeepInv : Obligations.ClockEdgesKeepInv := by
  intro c d p hi hasked h
  obtain ⟨-, rfl⟩ | ⟨-, -, -, rfl⟩ | ⟨-, hhold, -, rfl⟩ | ⟨-, -, t, ht, rfl⟩ := cycle_cases h
  · exact ⟨c.seq.hardReset_inv, nofun⟩
  · exact ⟨hi, hasked⟩
  · exact ⟨hi, fun _ => hhold⟩
  · have hdata : (c.seq.withDataI p.dataI).Inv := by rw [State.withDataI_eq]; exact hi
    exact ⟨hdata.step ht, nofun⟩

/-- Settles O48, case by case of `cycle`; a hold is no pending byte. -/
theorem clockEdgeFollowsTheHandshakes : Obligations.ClockEdgeFollowsTheHandshakes := by
  intro c p
  refine ⟨fun hrst => ?_, fun hrst hvalid hready => ?_, fun hrst hhold hdone => ?_, fun hrst htx hdly => ?_⟩
  · simp [cycle, hrst, clockedReset]
  · simp [cycle, hrst, hvalid, hready]
  · refine ⟨by simp [Clocked.dlyStartO, hhold], { c with asked := true }, ?_, rfl, rfl, by simp [Clocked.dlyStartO]⟩
    simp [cycle, hrst, State.txValidO_of_atHold hhold, hhold, hdone]
  · refine ⟨cycle_steps hrst htx hdly, fun hsamples => ?_⟩
    obtain ⟨t, ht, hsmp⟩ := step_withDataI_sample p.dataI hsamples
    exact ⟨t, by rw [cycle_steps hrst htx hdly, ht, clockedNext], hsmp⟩

end Sys2Proof.Proofs
end

section
/-! What a run of the sequencer's steps alone leaves on the two lines, and when its DATA events stand. -/

namespace Sys2Proof.Machine

/-- A run of one step more is a step and then the run. -/
theorem step_of_runSteps_succ {k : Nat} {s t : State} (h : runSteps (k + 1) s = .next t) :
    ∃ r, step s = .next r ∧ runSteps k r = .next t := by
  simp only [runSteps] at h
  split at h
  · exact ⟨_, ‹_›, h⟩
  · cases h
  · cases h

/-- The latches go along with all that a run of steps records (R23, R55). -/
theorem runSteps_latches (k : Nat) (s t : State) (h : runSteps k s = .next t) :
    ∃ es, t.trace = s.trace ++ es ∧ t.clk = es.foldl clkAfter s.clk ∧ t.dat = es.foldl datAfter s.dat := by
  induction k generalizing s with
  | zero => cases h; exact ⟨[], by simp, rfl, rfl⟩
  | succ k ih =>
    obtain ⟨r, hr, hrun⟩ := step_of_runSteps_succ h
    obtain ⟨es, hrec⟩ := step_records s r hr
    obtain ⟨es', htrace, hclk, hdat⟩ := ih r hrun
    exact ⟨es ++ es', by rw [htrace, hrec.trace, List.append_assoc], by rw [hclk, hrec.clk, List.foldl_append],
      by rw [hdat, hrec.dat, List.foldl_append]⟩

/-- `dataStable` said of pending micro-operations: none that drives DATA stands where CLOCK is high (R68); `high` says
whether it is driven high before them. -/
def opsStable : Bool → List MicroOp → Bool
  | _, [] => true
  | _, .clk l :: us => opsStable l us
  | high, .dat _ :: us => !high && opsStable high us
  | high, .datSh :: us => !high && opsStable high us
  | high, _ :: us => opsStable high us

/-- What the first of some stable micro-operations records is stable, and the others are stable behind it. -/
theorem State.perform_dataStable (s t : State) (u : MicroOp) (us : List MicroOp) (high : Bool)
    (hs : opsStable high (u :: us) = true) (h : s.perform u = some t) :
    ∃ es high', t.trace = s.trace ++ es ∧ opsStable high' us = true ∧
      ∀ later, dataStable high' later = true → dataStable high (es ++ later) = true := by
  obtain ⟨_, rfl, rfl⟩ | ⟨rfl, rfl⟩ | ⟨rfl, rfl⟩ | ⟨l, rfl, rfl⟩ | ⟨_, rfl, rfl⟩ | ⟨rfl, rfl⟩ | ⟨rfl, rfl⟩ |
    ⟨_, rfl, _, rfl⟩ | ⟨_, rfl, _, rfl⟩ | ⟨rfl, rfl⟩ | ⟨_, _, rfl, _, rfl⟩ | ⟨_, rfl, rfl⟩ | ⟨rfl, rfl⟩ |
    ⟨_, rfl, _, rfl⟩ := s.perform_cases t u h <;> try exact ⟨[_], high, rfl, hs, fun _ h => h⟩
  case inr.inr.inr.inl => -- `uCLK`
    exact ⟨_, l, rfl, hs, fun _ h => h⟩
  case inr.inr.inr.inr.inl | inr.inr.inr.inr.inr.inl => -- `uDAT`, `uDATsh`
    obtain ⟨hlow, hus⟩ := Bool.and_eq_true_iff.1 hs
    exact ⟨_, high, rfl, hus, fun _ h => Bool.and_eq_true_iff.2 ⟨hlow, h⟩⟩
  all_goals exact ⟨[], high, (List.append_nil _).symm, hs, fun _ h => h⟩

/-- A run within stable pending micro-operations, whether or not it waits for bytes, records stable events. -/
theorem runSteps_dataStable (k : Nat) (s t : State) (high : Bool) (hk : k ≤ s.uq.length)
    (hs : opsStable high s.uq = true) (h : runSteps k s = .next t) :
    ∃ es, t.trace = s.trace ++ es ∧ dataStable high es = true := by
  induction k generalizing s high with
  | zero => cases h; exact ⟨[], by simp, rfl⟩
  | succ k ih =>
    obtain ⟨r, hr, hrun⟩ := step_of_runSteps_succ h
    obtain ⟨-, ⟨-, -, rfl⟩ | ⟨hq, -⟩ | ⟨u, us, r, hq, hp, rfl⟩⟩ := step_cases s r hr
    · exact ih r high (Nat.le_of_succ_le hk) hs hrun
    · simp [hq] at hk
    · rw [hq] at hk hs
      obtain ⟨es, high', htrace, hus, hlater⟩ := s.perform_dataStable r u us high hs hp
      obtain ⟨es', htrace', hes'⟩ := ih (r.load us) high' (Nat.le_of_succ_le_succ hk) hus hrun
      exact ⟨es ++ es', by rw [htrace', State.load_trace, htrace, List.append_assoc], hlater es' hes'⟩

/-- Each data byte drives DATA while CLOCK is low, and leaves it low (R170 (d)). -/
theorem opsStable_copies_byteOps (n : Nat) : opsStable false (copies n byteOps) = true := by
  induction n with
  | zero => rfl
  | succ n ih => exact ih

end Sys2Proof.Machine
end

section
/-! The settled statements about the two lines. -/

namespace Sys2Proof.Proofs

open Sys2Proof Sys2Proof.Machine

/-- Settles O47: the latches after a run are where its events leave the lines, and edges are classed from there. -/
theorem edgesFollowTheLatches : Obligations.EdgesFollowTheLatches := by
  intro k s t h
  obtain ⟨es, htrace, hclk, hdat⟩ := runSteps_latches k s t h
  refine ⟨es, htrace, fun later => ?_, fun later => ?_, ?_, ?_⟩
  · rw [clkEdges_append, hclk]
  · rw [datEdges_append, hdat]
  · rw [hclk, foldl_clkAfter, clkEdges, unspecified_mem_lineEdges]
  · rw [hdat, foldl_datAfter, datEdges, unspecified_mem_lineEdges]

/-- Settles O26: what a bulk write loads drives DATA only while CLOCK is low. -/
theorem bulkWriteKeepsDataStable : Obligations.BulkWriteKeepsDataStable := by
  intro s t n k u _ he hk h
  cases he
  obtain ⟨es, htrace, hes⟩ := runSteps_dataStable k _ u false hk (opsStable_copies_byteOps (operandCount n)) h
  exact ⟨es, htrace, hes⟩

end Sys2Proof.Proofs
end

section
/-! Whole states: what the loops of the pseudocode leave (43_bitbang_transfer.md, R150). -/

namespace Sys2Proof.Machine

/-! ### The count, pulses and writes -/

/-- The count that `NUL` compares is 20 exactly where the count before it is 19 (R110, R114). -/
theorem cntAnnounces_cntNext (cnt : BitVec 5) : cntAnnounces (cntNext cnt) = true ↔ cnt = 19 := by
  revert cnt
  decide

theorem refNul_eq (s : State) :
    refNul s = { s with
      cnt := if s.cnt = 19 then 0 else s.cnt + 1
      trace := s.trace ++ if s.cnt = 19 then Config.bannerIdle.map .tx else [] } := by
  by_cases h : s.cnt = 19
  · rw [refNul, if_pos ((cntAnnounces_cntNext s.cnt).2 h), State.txString_eq, if_pos h, if_pos h]
  · rw [refNul, if_neg (mt (cntAnnounces_cntNext s.cnt).1 h), if_neg h, if_neg h, List.append_nil]
    rfl

theorem pulse_eq (s : State) :
    pulse s = { s with clk := some false, trace := s.trace ++ pulseEvents } := by
  simp [pulse, State.clkSet, State.delay, State.emit, pulseEvents]

/-- Some pulses in a row (R155). -/
theorem repeatN_pulse (n : Nat) (s : State) :
    repeatN (n + 1) pulse s =
      { s with clk := some false, trace := s.trace ++ (List.replicate (n + 1) pulseEvents).flatten } := by
  induction n generalizing s with
  | zero => simp [repeatN, pulse_eq]
  | succ n ih => rw [repeatN, ih, pulse_eq]; simp [List.replicate_succ]

theorem writeBit_eq (s : State) :
    writeBit s = { s with
      dat := some (s.sh.getLsbD 0), clk := some false, sh := s.sh >>> 1
      trace := s.trace ++ writeBitEvents (s.sh.getLsbD 0) } := by
  simp [writeBit, State.clkSet, State.datSet, State.delay, State.emit, writeBitEvents, operandLevel, shiftRight]

/-- Bits of `sh` written in a row, bit 0 first (R170). -/
theorem repeatN_writeBit (n : Nat) (s : State) :
    repeatN (n + 1) writeBit s = { s with
      dat := some (s.sh.getLsbD n), clk := some false, sh := s.sh >>> (n + 1)
      trace := s.trace ++ ((List.range (n + 1)).map s.sh.getLsbD).flatMap writeBitEvents } := by
  induction n generalizing s with
  | zero => simp [repeatN, writeBit_eq]
  | succ n ih =>
    have hlevels : (List.range (n + 2)).map s.sh.getLsbD =
        s.sh.getLsbD 0 :: (List.range (n + 1)).map (s.sh >>> 1).getLsbD := by
      rw [List.range_succ_eq_map]
      simp [Nat.add_comm]
    rw [repeatN, ih, writeBit_eq, hlevels]
    simp [← BitVec.shiftRight_add, Nat.add_comm]

theorem writeBitSequence_eq (s : State) :
    writeBitSequence s = { s with
      dat := some (s.sh.getLsbD 7), clk := some false, sh := 0x00
      trace := s.trace ++ (byteLevels s.sh).flatMap writeBitEvents } := by
  have hsh : s.sh >>> 8 = 0x00 := BitVec.ushiftRight_eq_zero le_rfl
  rw [writeBitSequence, Config.bitsPerByte, repeatN_writeBit, hsh, byteLevels]

/-- A data byte that is there is written and acknowledged (R173). -/
theorem refDataByte_eq (s : State) (b : Byte) (rest : List Byte) (hr : s.rx = b :: rest) :
    refDataByte s = some { s with
      rx := rest, dat := some (b.getLsbD 7), clk := some false, sh := 0x00
      trace := s.trace ++ dataByteEvents b } := by
  simp [refDataByte, s.rxRead_cons b rest hr, writeBitSequence_eq, State.txWrite, State.emit, dataByteEvents]

/-- Data bytes that are there are written in a row. -/
theorem repeatRead_refDataByte (ds : List Byte) (b : Byte) (s : State) (rest : List Byte)
    (hr : s.rx = b :: ds ++ rest) :
    repeatRead (b :: ds).length refDataByte s = some { s with
      rx := rest, dat := some (((b :: ds).getLastD 0x00).getLsbD 7), clk := some false, sh := 0x00
      trace := s.trace ++ (b :: ds).flatMap dataByteEvents } := by
  induction ds generalizing b s with
  | nil => simp [repeatRead, refDataByte_eq s b rest hr]
  | cons d ds ih =>
    rw [List.length_cons, repeatRead, refDataByte_eq s b (d :: ds ++ rest) hr]
    exact (ih d _ rfl).trans (by simp)

theorem refBwrite_eq (n : BitVec 4) (ds : List Byte) (s : State) (rest : List Byte) (hl : ds.length = operandCount n)
    (hr : s.rx = ds ++ rest) :
    refBwrite n s = some { s with
      rx := rest, dat := some ((ds.getLastD 0x00).getLsbD 7), clk := some false, sh := 0x00
      trace := s.trace ++ .tx Config.ack :: ds.flatMap dataByteEvents } := by
  cases ds with
  | nil => simp [operandCount] at hl
  | cons b ds =>
    rw [refBwrite, ← hl, repeatRead_refDataByte ds b (s.txWrite Config.ack) rest hr]
    simp

/-! ### Reads -/

theorem readBit_eq (s : State) : ∃ v, (∀ w ws, s.wire = w :: ws → v = w) ∧
    readBit s = { s with
      clk := some false, smp := v, sh := shiftIn v s.sh, wire := s.wire.tail, draws := s.draws + (1 - s.wire.length)
      trace := s.trace ++ readBitEvents v } := by
  obtain ⟨v, hv, hd⟩ := ((s.clkSet true).delay).datSample_spec
  refine ⟨v, hv, ?_⟩
  simp only [readBit, hd]
  simp [State.clkSet, State.delay, State.emit, readBitEvents]

/-- One sample, replied (R151). -/
theorem refRdbit_eq (s : State) : ∃ v, (∀ w ws, s.wire = w :: ws → v = w) ∧
    refRdbit s = { s with
      clk := some false, smp := v, wire := s.wire.tail, draws := s.draws + (1 - s.wire.length)
      trace := s.trace ++ (readBitEvents v ++ [.tx (sampleReply v)]) } := by
  obtain ⟨v, hv, hd⟩ := ((s.clkSet true).delay).datSample_spec
  refine ⟨v, hv, ?_⟩
  simp only [refRdbit, hd]
  simp [State.clkSet, State.delay, State.txWrite, State.emit, readBitEvents, sampleReply, Config.bitLowReply]

/-- Samples taken in a row are the environment's answers where it has fixed them, and each is shifted into `sh`
(R171). -/
theorem repeatN_readBit (n : Nat) (s : State) : ∃ vs : List Level, vs.length = n ∧
    (∀ j v, j < n → s.wire[j]? = some v → vs[j]? = some v) ∧
    repeatN n readBit s = { s with
      clk := if n = 0 then s.clk else some false, smp := vs.getLastD s.smp
      sh := vs.foldl (fun sh v => shiftIn v sh) s.sh, wire := s.wire.drop n, draws := s.draws + (n - s.wire.length)
      trace := s.trace ++ vs.flatMap readBitEvents } := by
  induction n generalizing s with
  | zero => exact ⟨[], rfl, by simp, by simp [repeatN]⟩
  | succ n ih =>
    obtain ⟨v, hv, hbit⟩ := readBit_eq s
    obtain ⟨vs, hl, hvs, hbits⟩ := ih (readBit s)
    refine ⟨v :: vs, by simp [hl], fun j w hj hw => ?_, ?_⟩
    · cases j with
      | zero =>
        obtain ⟨ws, hws⟩ := List.head?_eq_some_iff.1 (List.head?_eq_getElem? ▸ hw)
        rw [hv w ws hws]; rfl
      | succ j => exact hvs j w (Nat.lt_of_succ_lt_succ hj) (by simpa [hbit] using hw)
    · have hdraws : s.draws + (1 - s.wire.length) + (n - (s.wire.length - 1)) = s.draws + (n + 1 - s.wire.length) := by
        omega
      rw [repeatN, hbits, hbit, List.getLastD_cons]
      simp [hdraws]

/-- Samples whose levels the environment has fixed ahead are those levels (R58). -/
theorem eq_of_answered {n : Nat} {vs ls ws : List Level} (hvs : vs.length = n) (hls : ls.length = n)
    (h : ∀ j v, j < n → (ls ++ ws)[j]? = some v → vs[j]? = some v) : vs = ls := by
  refine List.ext_getElem (hvs.trans hls.symm) fun j _ hj => ?_
  have hanswer : (ls ++ ws)[j]? = some ls[j] := by rw [List.getElem?_append_left hj, List.getElem?_eq_getElem hj]
  exact (List.getElem_eq_iff _).2 (h j _ (hls ▸ hj) hanswer)

/-- Sample `j` stands in bit `j` of the assembled byte (R171). -/
theorem getLsbD_assembled (vs : List Level) (j : Nat) (hj : j < 8) :
    (assembled vs).getLsbD j = vs.getD j false := by
  have hsum : ((List.range 8).map fun i => if vs.getD i false then 2 ^ i else 0).sum =
      Nat.ofBits fun i : Fin 8 => vs.getD i false := by
    have hlevel (v : Bool) (k : Nat) : (if v then k else 0) = v.toNat * k := by cases v <;> simp
    simp [Nat.ofBits, Fin.foldr_succ, List.range_succ, hlevel]
    ring
  rw [assembled, hsum, BitVec.getLsbD_ofNat, Nat.testBit_ofBits_lt _ j hj]
  simp [hj]

/-- The eight levels of a byte assemble it again (R69). -/
theorem assembled_byteLevels (b : Byte) : assembled (byteLevels b) = b := by
  refine BitVec.eq_of_getLsbD_eq fun j hj => ?_
  rw [getLsbD_assembled _ j hj]
  simp [byteLevels, hj]

/-- Eight samples shifted in are the byte assembled of them. -/
theorem foldl_shiftIn (vs : List Level) (hl : vs.length = 8) :
    vs.foldl (fun sh v => shiftIn v sh) 0x00 = assembled vs := by
  match vs, hl with
  | [a, b, c, d, e, f, g, h], _ =>
    revert a b c d e f g h
    decide +kernel

/-- The byte read: eight samples, DATA released first (R171, R172). -/
theorem refRdbyte_eq (s : State) : ∃ vs : List Level, vs.length = 8 ∧
    (∀ j v, j < 8 → s.wire[j]? = some v → vs[j]? = some v) ∧
    refRdbyte s = { s with
      clk := some false, dat := some true, sh := assembled vs, smp := vs.getD 7 false
      wire := s.wire.drop 8, draws := s.draws + (8 - s.wire.length)
      trace := s.trace ++ .dat true :: (vs.flatMap readBitEvents ++ [.tx (assembled vs)]) } := by
  obtain ⟨vs, hl, hvs, hbits⟩ := repeatN_readBit 8 { s.datSet true with sh := 0x00 }
  refine ⟨vs, hl, hvs, ?_⟩
  rw [refRdbyte, readBitSequence, Config.bitsPerByte, hbits, foldl_shiftIn vs hl]
  simp [State.txWrite, State.emit, State.datSet, List.getLast?_eq_getElem?, hl]

end Sys2Proof.Machine
end

section
/-! A command from its fetch to its end: the events it records, and a host script line by line (R63, R100). -/

namespace Sys2Proof.Machine

/-- A well-formed command's byte reads as that command in the mode of its table (R86, R87). -/
theorem commandOf_encodeByte (i : Instr) (h : i.wf = true) : commandOf i.table (encodeByte i) = i := by
  cases i with
  | ign b => revert b; decide +kernel
  | ill b => revert b; decide +kernel
  | setclk l => cases l <;> rfl
  | setdat l => cases l <;> rfl
  | bwrite n => revert n; decide +kernel
  | bclk n => revert n; decide +kernel
  | cfgper x => revert x; decide +kernel
  | cfgspd x => revert x; decide +kernel
  | cfgmode x => revert x; decide +kernel
  | _ => rfl

/-- The events of a command behind the fetch of its command byte, by its data bytes, the idle count at its fetch and the
levels it samples (the **Trace** part of each command rule). -/
def commandEvents (i : Instr) (ds : List Byte) (cnt : BitVec 5) (vs : List Level) : List Event :=
  match i with
  | .nul => if cnt = 19 then Config.bannerIdle.map .tx else []
  | .enter => Config.bannerRaw.map .tx
  | .ign _ => []
  | .exit => Config.bannerIdle.map .tx
  | .reann => Config.bannerRaw.map .tx
  | .rdbyte => .dat true :: (vs.flatMap readBitEvents ++ [.tx (assembled vs)])
  | .rdbit => vs.flatMap fun v => readBitEvents v ++ [.tx (sampleReply v)]
  | .clktick => pulseEvents ++ [.tx Config.ack]
  | .setclk l => [.clk l, .tx Config.ack]
  | .setdat l => [.dat l, .tx Config.ack]
  | .bwrite _ => .tx Config.ack :: ds.flatMap dataByteEvents
  | .bclk n => (List.replicate (operandCount n) pulseEvents).flatten ++ [.tx Config.ack]
  | .cfgper _ => [.tx Config.ack]
  | .cfgspd _ => [.tx Config.ack]
  | .cfgmode _ => [.tx Config.ack]
  | .ill _ => []

/-- From `s` to `r` the command `i` with the data bytes `ds` is done, but for its fetch: the mode and the count are those it
leaves, it has sampled the levels `vs`, and its events are recorded. -/
structure State.Completes (s r : State) (i : Instr) (ds : List Byte) (vs : List Level) : Prop where
  mode : r.mode = i.modeAfter s.mode
  cnt : CountAfter s.cnt i r.cnt
  samples : vs.length = sampleCount i
  trace : r.trace = s.trace ++ commandEvents i ds s.cnt vs

/-- The pseudocode of a command without data bytes completes it. -/
theorem reference_completes_plain (i : Instr) (s : State) (hi : i.dataBytes = 0) :
    ∃ r vs, reference i s = some r ∧ r.rx = s.rx ∧ s.Completes r i [] vs := by
  cases i with
  | nul => exact ⟨_, [], congrArg some (refNul_eq s), rfl, rfl, rfl, rfl, rfl⟩
  | enter =>
    refine ⟨refEnter s, [], rfl, ?_⟩
    rw [refEnter, State.txString_eq]
    exact ⟨rfl, rfl, rfl, rfl, rfl⟩
  | ign b => exact ⟨s, [], rfl, rfl, rfl, rfl, rfl, (List.append_nil _).symm⟩
  | exit =>
    refine ⟨refExit s, [], rfl, ?_⟩
    rw [refExit, State.txString_eq]
    exact ⟨rfl, rfl, cntDrawn_le _, rfl, rfl⟩
  | reann => exact ⟨_, [], congrArg some (State.txString_eq _ s), rfl, rfl, rfl, rfl, rfl⟩
  | rdbyte =>
    obtain ⟨vs, hl, -, he⟩ := refRdbyte_eq s
    exact ⟨_, vs, congrArg some he, rfl, rfl, rfl, hl, rfl⟩
  | rdbit =>
    obtain ⟨v, -, he⟩ := refRdbit_eq s
    exact ⟨_, [v], congrArg some he, rfl, rfl, rfl, rfl, rfl⟩
  | clktick =>
    refine ⟨refClktick s, [], rfl, ?_⟩
    rw [refClktick, pulse_eq]
    exact ⟨rfl, rfl, rfl, rfl, List.append_assoc ..⟩
  | setclk l => exact ⟨refSetclk l s, [], rfl, rfl, rfl, rfl, rfl, List.append_assoc ..⟩
  | setdat l => exact ⟨refSetdat l s, [], rfl, rfl, rfl, rfl, rfl, List.append_assoc ..⟩
  | bwrite n => exact absurd hi (operandCount_ne_zero n)
  | bclk n =>
    refine ⟨refBclk n s, [], rfl, ?_⟩
    rw [refBclk, operandCount, repeatN_pulse]
    exact ⟨rfl, rfl, rfl, rfl, List.append_assoc ..⟩
  | ill b => exact ⟨s.raiseHalt, [], rfl, rfl, rfl, rfl, rfl, (List.append_nil _).symm⟩
  | _ => exact ⟨refConfigure s, [], rfl, rfl, rfl, rfl, rfl, rfl⟩

/-- The pseudocode of a command whose data bytes are there does not block, and completes it. -/
theorem reference_completes (i : Instr) (ds : List Byte) (s : State) (rest : List Byte) (hl : ds.length = i.dataBytes)
    (hr : s.rx = ds ++ rest) :
    ∃ r vs, reference i s = some r ∧ r.rx = rest ∧ s.Completes r i ds vs := by
  cases i with
  | bwrite n => exact ⟨_, [], refBwrite_eq n ds s rest hl hr, rfl, rfl, rfl, rfl, rfl⟩
  | _ =>
    obtain rfl : ds = [] := List.length_eq_zero_iff.1 hl
    obtain ⟨r, vs, he, hrx, hc⟩ := reference_completes_plain _ s hl.symm
    exact ⟨r, vs, he, hrx.trans hr, hc⟩

/-- A command that does not block ends with nothing pending. -/
theorem reference_uq (i : Instr) (s r : State) (hq : s.uq = []) (h : reference i s = some r) : r.uq = [] := by
  by_cases hi : ∃ b, i = .ill b
  · obtain ⟨b, rfl⟩ := hi
    cases h; rfl
  · obtain ⟨c, us, -, -, hcq, hp⟩ := exec_loads_reference i s hq (by simpa using hi)
    exact (State.performAll_uq us c r (hp.trans h)).trans hcq

/-- A well-formed command whose bytes are there runs from its fetch to its end, with nothing left pending (R63). -/
theorem runSteps_command (i : Instr) (ds : List Byte) (s : State) (rest : List Byte) (hwf : i.wf = true)
    (hl : ds.length = i.dataBytes) (hq : s.uq = []) (hm : s.mode = i.table) (hr : s.rx = encodeByte i :: ds ++ rest) :
    ∃ k r vs, runSteps k s = .next r ∧ r.uq = [] ∧ r.rx = rest ∧
      (s.fetched (encodeByte i) (ds ++ rest)).Completes r i ds vs := by
  have hqf : (s.fetched (encodeByte i) (ds ++ rest)).uq = [] := hq
  obtain ⟨r, vs, href, hrx, hc⟩ := reference_completes i ds (s.fetched (encodeByte i) (ds ++ rest)) rest hl rfl
  have hmode : s.mode ≠ .halt := by rw [hm]; cases i <;> simp [Instr.table]
  obtain ⟨t, he, hrun⟩ := Proofs.microOperationsMatchPseudocode i _ r hqf hm href
  have hfetch : step s = .next t := by
    rw [step_fetch s (encodeByte i) (ds ++ rest) hmode hq hr, hm, commandOf_encodeByte i hwf, he]
  exact ⟨t.uq.length + 1, r, vs, (runSteps_next _ s t hfetch).trans hrun, reference_uq i _ r hqf href, hrx, hc⟩

/-! ### What is seen of a command's events -/

theorem rxBytes_dataBytes (ds : List Byte) : rxBytes (ds.flatMap dataByteEvents) = ds := by
  induction ds with
  | nil => rfl
  | cons b ds ih => rw [List.flatMap_cons, rxBytes_append, ih]; rfl

theorem txBytes_dataBytes (ds : List Byte) :
    txBytes (ds.flatMap dataByteEvents) = List.replicate ds.length Config.ack := by
  induction ds with
  | nil => rfl
  | cons b ds ih => rw [List.flatMap_cons, txBytes_append, ih]; rfl

theorem smpLevels_dataBytes (ds : List Byte) : smpLevels (ds.flatMap dataByteEvents) = [] := by
  induction ds with
  | nil => rfl
  | cons b ds ih => rw [List.flatMap_cons, smpLevels_append, ih]; rfl

/-- Behind its command byte a command consumes its data bytes (R84). -/
theorem rxBytes_commandEvents (i : Instr) (ds : List Byte) (cnt : BitVec 5) (vs : List Level)
    (hl : ds.length = i.dataBytes) : rxBytes (commandEvents i ds cnt vs) = ds := by
  cases i with
  | bwrite n => exact rxBytes_dataBytes ds
  | nul =>
    obtain rfl : ds = [] := List.length_eq_zero_iff.1 hl
    simp only [commandEvents]
    split <;> rfl
  | _ =>
    obtain rfl : ds = [] := List.length_eq_zero_iff.1 hl
    simp [commandEvents, rxBytes, List.filterMap_flatMap, List.filterMap_flatten, readBitEvents, pulseEvents]

/-- A command's events hold the levels it samples, and no others (R35). -/
theorem smpLevels_commandEvents (i : Instr) (ds : List Byte) (cnt : BitVec 5) (vs : List Level)
    (hvs : vs.length = sampleCount i) : smpLevels (commandEvents i ds cnt vs) = vs := by
  cases i with
  | rdbyte => simp [commandEvents, smpLevels, List.filterMap_flatMap, readBitEvents]
  | rdbit => simp [commandEvents, smpLevels, List.filterMap_flatMap, readBitEvents]
  | bclk n =>
    obtain rfl : vs = [] := List.length_eq_zero_iff.1 hvs
    simp [commandEvents, smpLevels, List.filterMap_flatten, pulseEvents]
  | bwrite n =>
    obtain rfl : vs = [] := List.length_eq_zero_iff.1 hvs
    exact smpLevels_dataBytes ds
  | nul =>
    obtain rfl : vs = [] := List.length_eq_zero_iff.1 hvs
    simp only [commandEvents]
    split <;> rfl
  | _ =>
    obtain rfl : vs = [] := List.length_eq_zero_iff.1 hvs
    rfl

/-- A command sends its reply (the **Reply** part of each command rule). -/
theorem txBytes_commandEvents (i : Instr) (ds : List Byte) (cnt : BitVec 5) (vs : List Level)
    (hl : ds.length = i.dataBytes) : txBytes (commandEvents i ds cnt vs) = replyTo ⟨i, ds⟩ cnt vs := by
  cases i with
  | nul =>
    simp only [commandEvents, replyTo]
    split <;> rfl
  | rdbyte => simp [commandEvents, replyTo, txBytes, List.filterMap_flatMap, readBitEvents]
  | rdbit =>
    simp [commandEvents, replyTo, txBytes, List.filterMap_flatMap, readBitEvents, ← List.map_eq_flatMap, sampleReply,
      Config.bitLowReply]
  | bclk n => simp [commandEvents, replyTo, txBytes, List.filterMap_flatten, pulseEvents]
  | bwrite n =>
    have hds := congrArg (Config.ack :: ·) (txBytes_dataBytes ds)
    rw [hl] at hds
    exact hds
  | _ => rfl

/-- A command that touches a pin ends with a reply byte (R64). -/
theorem getLast?_commandEvents (i : Instr) (ds : List Byte) (cnt : BitVec 5) (vs : List Level)
    (hvs : vs.length = sampleCount i) (hpin : (commandEvents i ds cnt vs).any isPin = true) :
    ∃ b, (commandEvents i ds cnt vs).getLast? = some (.tx b) := by
  cases i with
  | nul =>
    simp only [commandEvents] at hpin
    split at hpin <;> exact absurd hpin (by decide)
  | ign b => exact absurd hpin (by simp [commandEvents])
  | ill b => exact absurd hpin (by simp [commandEvents])
  | rdbyte => exact ⟨assembled vs, by simp [commandEvents, List.getLast?_cons]⟩
  | rdbit =>
    obtain ⟨v, rfl⟩ := List.length_eq_one_iff.1 hvs
    exact ⟨sampleReply v, rfl⟩
  | bwrite n =>
    refine ⟨Config.ack, ?_⟩
    obtain rfl | ⟨init, b, rfl⟩ := ds.eq_nil_or_concat'
    · rfl
    · simp [commandEvents, dataByteEvents, List.getLast?_cons]
  | bclk n => exact ⟨Config.ack, List.getLast?_concat⟩
  | _ => exact ⟨_, rfl⟩

/-- A command's fetch and its events are the segment its line asks for (R63). -/
theorem segmentOf_commandEvents (i : Instr) (ds : List Byte) (cnt : BitVec 5) (vs : List Level)
    (hl : ds.length = i.dataBytes) (hvs : vs.length = sampleCount i) :
    SegmentOf cnt ⟨i, ds⟩ (.rx (encodeByte i) :: commandEvents i ds cnt vs) := by
  have hsmp : smpLevels (.rx (encodeByte i) :: commandEvents i ds cnt vs) = vs := smpLevels_commandEvents i ds cnt vs hvs
  refine ⟨rfl, congrArg (encodeByte i :: ·) (rxBytes_commandEvents i ds cnt vs hl), ?_, ?_, fun hpin => ?_⟩
  · rw [hsmp, hvs]
  · rw [hsmp]
    exact txBytes_commandEvents i ds cnt vs hl
  · obtain ⟨b, hb⟩ := getLast?_commandEvents i ds cnt vs hvs hpin
    exact ⟨b, by rw [List.getLast?_cons, hb]; rfl⟩

/-! ### A host script -/

/-- A legal script whose bytes are there runs to its end, one segment for each line (R63, R102). -/
theorem runSteps_script (script : List HostLine) (s : State) (rest : List Byte) (hq : s.uq = [])
    (hfits : scriptFits s.mode script = true) (hr : s.rx = assemble script ++ rest) :
    ∃ k t segments, runSteps k s = .next t ∧ t.uq = [] ∧ t.rx = rest ∧ t.mode = scriptEnd s.mode script ∧
      SegmentsOf t.cnt s.cnt script segments ∧ t.trace = s.trace ++ segments.flatten := by
  induction script generalizing s with
  | nil => exact ⟨0, s, [], rfl, hq, hr, rfl, ⟨rfl, rfl⟩, by simp⟩
  | cons line script ih =>
    obtain ⟨⟨⟨hwf, hl⟩, hm⟩, hrest⟩ : ((line.instr.wf = true ∧ line.data.length = line.instr.dataBytes) ∧
        line.instr.table = s.mode) ∧ scriptFits (line.instr.modeAfter s.mode) script = true := by
      simpa [scriptFits, HostLine.wf] using hfits
    have hbytes : s.rx = encodeByte line.instr :: line.data ++ (assemble script ++ rest) := by
      rw [hr]
      simp [assemble, HostLine.bytes, encode]
    obtain ⟨j, r, vs, hj, hrq, hrx, hmode, hcnt, hvs, htrace⟩ :=
      runSteps_command line.instr line.data s _ hwf hl hq hm.symm hbytes
    obtain ⟨k, t, segs, hk, htq, htx, htmode, hsegs, httrace⟩ := ih r hrq (hmode ▸ hrest) hrx
    refine ⟨j + k, t, _ :: segs, (runSteps_add j k s r hj).trans hk, htq, htx, ?_,
      ⟨segmentOf_commandEvents line.instr line.data s.cnt vs hl hvs, r.cnt, hcnt, hsegs⟩, ?_⟩
    · rw [htmode, hmode]; rfl
    · rw [httrace, htrace]
      simp [State.fetched]

end Sys2Proof.Machine
end

section
/-! The settled statements about the byte transfers and host scripts. -/

namespace Sys2Proof.Proofs

open Sys2Proof Sys2Proof.Machine

/-- Settles O33, line by line: each line's command runs from its fetch to its end. -/
theorem scriptRepliesComeInOrder : Obligations.ScriptRepliesComeInOrder :=
  fun script s rest hq _ => runSteps_script script s rest hq

/-- Settles O27: a write of one data byte drives its levels, and eight samples fixed as those levels assemble it. -/
theorem readUndoesWrite : Obligations.ReadUndoesWrite := by
  intro b s r rest hs hr hrm
  have hwrite := refBwrite_eq 0 [b] (s.load []) rest rfl hr
  obtain ⟨t, he, hrun⟩ := microOperationsMatchPseudocode (.bwrite 0) (s.load []) _ rfl hs hwrite
  cases he
  have hlevels : datLevels (.tx Config.ack :: [b].flatMap dataByteEvents) = byteLevels b := rfl
  refine ⟨_, _, _, rfl, hrun, rfl, hlevels, fun ws hw => ?_⟩
  rw [hlevels] at hw
  obtain ⟨vs, hl, hvs, href⟩ := refRdbyte_eq (r.load [])
  obtain ⟨t', he', hrun'⟩ := microOperationsMatchPseudocode .rdbyte (r.load []) _ rfl hrm (congrArg some href)
  cases he'
  obtain rfl : vs = byteLevels b := eq_of_answered hl rfl (hw ▸ hvs)
  refine ⟨_, _, rfl, hrun', assembled_byteLevels b, ?_, ?_⟩
  · change r.wire.drop 8 = ws
    rw [hw, List.drop_left' hl]
  · change txBytes (r.trace ++ commandEvents .rdbyte [] 0 (byteLevels b)) = _
    rw [txBytes_append, txBytes_commandEvents .rdbyte [] 0 _ rfl]
    simp [replyTo, assembled_byteLevels]

end Sys2Proof.Proofs
end

/-! ## The encoding statements: the decode tables, their rows, and the words of the opcode table -/

section
/-! The decoder row by row, the disjointness of the rows, and how a table word is placed (R80 to R89). -/

namespace Sys2Proof.Machine

/-! ### One reading for each byte -/

/-- No command belongs to HALT (R85). -/
theorem table_ne_halt (i : Instr) : i.table ≠ .halt := by cases i <;> simp [Instr.table]

/-- A well-formed command is what its byte reads as, so no two of one table share a byte (R86, R87). -/
theorem eq_commandOf (i : Instr) (m : Mode) (b : Byte) (hwf : i.wf = true) (ht : i.table = m) (he : encode i = [b]) :
    i = commandOf m b := by
  obtain rfl : encodeByte i = b := List.singleton_inj.1 he
  exact ht ▸ (commandOf_encodeByte i hwf).symm

/-- A raw-wire byte reads as `ILL` exactly when R89 lists it. -/
theorem decodeRaw_eq_ill_iff (b : Byte) : decodeRaw b = .ill b ↔ illegalRaw b = true :=
  ⟨fun h => (illegalRaw_of_commandOf (m := .raw) nofun h).2, commandOf_encodeByte (.ill b)⟩

/-! ### The tables as chains of tests -/

theorem decodeWith_nil (default : Byte → Instr) (b : Byte) : decodeWith [] default b = default b := rfl

/-- The first row is tried first (R87). -/
theorem decodeWith_cons (r : OpRow) (rows : List OpRow) (default : Byte → Instr) (b : Byte) :
    decodeWith (r :: rows) default b = if b &&& r.mask = r.pat then r.make b else decodeWith rows default b := by
  by_cases h : b &&& r.mask = r.pat <;> simp [decodeWith, OpRow.hits, h]

/-- The mask 0xFF compares the whole byte. -/
theorem and_fullMask (b : Byte) : b &&& 0xFF = b := BitVec.and_allOnes

theorem operandLevel_eq (b : Byte) : operandLevel b = (b &&& 0x01 == 0x01) := by revert b; decide +kernel

theorem operandNibble_eq (b : Byte) : operandNibble b = b.truncate 4 :=
  (BitVec.setWidth_eq_extractLsb' (by decide)).symm

theorem decodeIdle_eq (b : Byte) :
    decodeIdle b = if b = 0x00 then .nul else if b = 0x05 then .enter else .ign b := by
  simp only [decodeIdle, idleRows, decodeWith_cons, decodeWith_nil, and_fullMask, Config.nulByte, Config.enterByte]

theorem decodeRaw_eq (b : Byte) : decodeRaw b =
    if b = 0x00 then .exit
    else if b = 0x01 then .reann
    else if b = 0x06 then .rdbyte
    else if b = 0x07 then .rdbit
    else if b = 0x09 then .clktick
    else if b &&& 0xFE = 0x0A then .setclk (b &&& 0x01 == 0x01)
    else if b &&& 0xFE = 0x0C then .setdat (b &&& 0x01 == 0x01)
    else if b &&& 0xF0 = 0x10 then .bwrite (b.truncate 4)
    else if b &&& 0xF0 = 0x20 then .bclk (b.truncate 4)
    else if b &&& 0xF0 = 0x40 then .cfgper (b.truncate 4)
    else if b &&& 0xF0 = 0x60 then .cfgspd (b.truncate 4)
    else if b &&& 0xF0 = 0x80 then .cfgmode (b.truncate 4)
    else .ill b := by
  simp only [decodeRaw, rawRows, decodeWith_cons, decodeWith_nil, and_fullMask, operandLevel_eq, operandNibble_eq]

/-- R89's list, its ranges of sixteen told by their upper four bits. -/
theorem illegalRaw_iff (b : Byte) : illegalRaw b = true ↔
    b ∈ [0x02, 0x03, 0x04, 0x05, 0x08, 0x0E, 0x0F] ∨ b &&& 0xF0 = 0x30 ∨ b &&& 0xF0 = 0x50 ∨
    b &&& 0xF0 = 0x70 ∨ 0x90 ≤ b := by
  revert b; decide +kernel

/-! ### Disjoint rows -/

/-- Two rows ask for different values of some bit that both their masks cover. -/
def RowsClash (r q : OpRow) : Prop := r.pat &&& q.mask ≠ q.pat &&& r.mask

/-- Rows that clash match no byte in common. -/
theorem RowsClash.not_both_hit {r q : OpRow} (h : RowsClash r q) (b : Byte) (hr : r.hits b = true)
    (hq : q.hits b = true) : False := by
  have hr : b &&& r.mask = r.pat := beq_iff_eq.1 hr
  have hq : b &&& q.mask = q.pat := beq_iff_eq.1 hq
  apply h
  rw [← hr, ← hq, BitVec.and_assoc, BitVec.and_assoc, BitVec.and_comm r.mask]

/-- Every two of the twelve legal rows clash (R88), row against row. -/
theorem rawRows_clash : rawRows.Pairwise RowsClash := by
  unfold RowsClash
  decide

/-- Of rows that clash pairwise at most one matches a byte. -/
theorem length_filter_hits_le_one {rows : List OpRow} (h : rows.Pairwise RowsClash) (b : Byte) :
    (rows.filter (·.hits b)).length ≤ 1 := by
  have hpair := h.filter (·.hits b)
  have hhits : ∀ r ∈ rows.filter (·.hits b), r.hits b = true := fun r hr => (List.mem_filter.1 hr).2
  generalize rows.filter (·.hits b) = hitting at hpair hhits ⊢
  match hitting with
  | [] => simp
  | [_] => simp
  | r :: q :: _ =>
    have hclash : RowsClash r q := List.rel_of_pairwise_cons hpair (by simp)
    exact (hclash.not_both_hit b (hhits r (by simp)) (hhits q (by simp))).elim

/-- Where at most one row matches, the first match is the same in every order of the rows. -/
theorem find?_hits_of_perm {rows rows' : List OpRow} (hp : rows'.Perm rows) (b : Byte)
    (hone : (rows.filter (·.hits b)).length ≤ 1) : rows'.find? (·.hits b) = rows.find? (·.hits b) := by
  have hf := hp.filter (·.hits b)
  rw [← List.head?_filter, ← List.head?_filter]
  generalize rows.filter (·.hits b) = hitting at hone hf ⊢
  match hitting with
  | [] => rw [hf.eq_nil]
  | [_] => rw [hf.eq_singleton]

/-! ### Words of the opcode table -/

/-- The two exact Idle rows match the bytes that Idle does not discard (R86). -/
theorem any_idleRows_hits (b : Byte) : idleRows.any (·.hits b) = !ignoredIdle b := by revert b; decide +kernel

/-- A legal row of R87 matches every byte but those of R89's list. -/
theorem any_rawRows_hits (b : Byte) : rawRows.any (·.hits b) = !illegalRaw b := by revert b; decide +kernel

theorem tableMode_ne_halt (bs : List Byte) : tableMode bs ≠ .halt := by
  cases bs with
  | nil => nofun
  | cons b bs =>
    rw [tableMode]
    split_ifs <;> nofun

/-- What a table word with the first byte `b` is read as (log 12). -/
theorem commandOf_tableMode (b : Byte) (bs : List Byte) : commandOf (tableMode (b :: bs)) b =
    if b = 0x00 then .nul else if b = 0x05 then .enter else if illegalRaw b then .ign b else decodeRaw b := by
  by_cases h0 : b = 0x00
  · subst h0; rfl
  by_cases h5 : b = 0x05
  · subst h5; rfl
  have hign : ignoredIdle b = true := Bool.and_eq_true_iff.2 ⟨bne_iff_ne.2 h0, bne_iff_ne.2 h5⟩
  rw [if_neg h0, if_neg h5]
  cases hill : illegalRaw b <;> simp only [tableMode, any_idleRows_hits, any_rawRows_hits, hign, hill]
  · rfl
  · exact commandOf_encodeByte (.ign b) hign

/-- A table word's first byte is its low one, and its only one where it has at most 8 bits. -/
theorem tableBytes_cons (nbits w : Nat) :
    ∃ bs, tableBytes nbits w = BitVec.ofNat 8 (w % 2 ^ nbits) :: bs ∧ (nbits ≤ 8 → bs = []) := by
  obtain ⟨k, hk⟩ : ∃ k, max 1 ((nbits + 7) / 8) = k + 1 := ⟨max 1 ((nbits + 7) / 8) - 1, by omega⟩
  refine ⟨lowBytes k (w % 2 ^ nbits / 256), by rw [tableBytes, hk, lowBytes], fun h8 => ?_⟩
  obtain rfl : k = 0 := by omega
  rfl

theorem decodeTableWord_eq {nbits w : Nat} {b : Byte} {bs : List Byte} (h : tableBytes nbits w = b :: bs) :
    decodeTableWord nbits w = some (commandOf (tableMode (b :: bs)) b) := by
  simp only [decodeTableWord, h, decode_cons _ b bs (tableMode_ne_halt _)]

/-- A placed word's bytes, then 0x00 for each data byte it does not give (R84). -/
theorem tableStream_eq {nbits w : Nat} {b : Byte} {bs : List Byte} {i : Instr} (h : tableBytes nbits w = b :: bs)
    (hi : decodeTableWord nbits w = some i) :
    tableStream nbits w = b :: (bs ++ List.replicate (i.dataBytes - bs.length) 0x00) := by
  have hlen : 1 + i.dataBytes - (bs.length + 1) = i.dataBytes - bs.length := by omega
  simp [tableStream, h, hi, hlen]

end Sys2Proof.Machine
end

section
/-! The settled statements about the encoding. -/

namespace Sys2Proof.Proofs

open Sys2Proof Sys2Proof.Machine

/-- Settles O6: the mode's table reads the command's byte back as the command, and takes that byte only. -/
theorem decodeUndoesEncode : Obligations.DecodeUndoesEncode := by
  intro i rest hwf
  calc decode i.table (encode i ++ rest)
    _ = .ok (commandOf i.table (encodeByte i), rest) := decode_cons _ _ rest (table_ne_halt i)
    _ = .ok (i, rest) := by rw [commandOf_encodeByte i hwf]

/-- Settles O7: what the mode's table reads is well-formed and encodes to the byte; decode of encode makes it the only
such command. -/
theorem everyByteHasOneReading : Obligations.EveryByteHasOneReading := by
  intro m b rest
  refine ⟨fun hm => ?_, fun hm => ?_, rfl⟩
  · obtain ⟨hwf, htable, hbyte⟩ := commandOf_reads m b hm
    exact ⟨commandOf m b, decode_cons m b rest hm, hwf, htable, congrArg ([·]) hbyte, fun j => eq_commandOf j m b⟩
  · cases m with
    | halt => exact absurd rfl hm
    | _ => rfl

/-- Settles O8: every two rows ask for different values of a bit that both masks cover. -/
theorem rowOrderCannotMatter : Obligations.RowOrderCannotMatter := by
  have hone := length_filter_hits_le_one rawRows_clash
  refine ⟨hone, fun rows hp b => ?_⟩
  rw [decodeRaw, decodeWith, decodeWith, find?_hits_of_perm hp b (hone b)]

/-- Settles O3: the word's bytes are placed in the mode whose table reads the first of them as the command. -/
theorem placedWordRunsNext : Obligations.PlacedWordRunsNext := by
  intro s nbits w
  obtain ⟨bs, hbytes, hshort⟩ := tableBytes_cons nbits w
  generalize BitVec.ofNat 8 (w % 2 ^ nbits) = b at hbytes ⊢
  have hm := tableMode_ne_halt (b :: bs)
  have hi := decodeTableWord_eq hbytes
  have hrx := tableStream_eq hbytes hi
  have hmode : (s.withFetchWord nbits w).mode = tableMode (b :: bs) := congrArg tableMode hbytes
  obtain ⟨hwf, htable, hbyte⟩ := commandOf_reads _ b hm
  refine ⟨_, b, _, rfl, commandOf_tableMode b bs, hi, hwf, hmode.trans htable.symm, hrx, hbyte, ?_, fun h8 => ?_, ?_⟩
  · simp only [List.length_append, List.length_replicate]
    omega
  · rw [hshort h8]; rfl
  · have hstep := step_fetch (s.withFetchWord nbits w) b _ (hmode ▸ hm) rfl hrx
    rwa [hmode] at hstep

/-- Settles O4, each written-out byte read by the decoder. -/
theorem writtenOutBytesDecode : Obligations.WrittenOutBytesDecode :=
  ⟨rfl, rfl, rfl, rfl, rfl, rfl, rfl, rfl, rfl, rfl, rfl, rfl⟩

/-- Settles O5: each table tries its rows in order, and R89's list is what no legal row matches. -/
theorem decodeTablesAreThese : Obligations.DecodeTablesAreThese := by
  refine ⟨fun b rest => ⟨?_, ?_, ?_⟩, fun n => rfl⟩
  · rw [decode, decodeIdle_eq]
  · simp only [decode, decodeRaw_eq]
  · simp only [decode, Except.ok.injEq, Prod.mk.injEq, and_true, decodeRaw_eq_ill_iff]
    exact illegalRaw_iff b

end Sys2Proof.Proofs
end

/-! ## The Idle statements: the count, the banner that enters raw-wire mode, and the bytes that Idle discards -/

section
/-! Idle bytes (40_mode_controller.md): what `NUL` loads, what a banner's steps leave, and bytes without 0x05 in a row. -/

namespace Sys2Proof.Machine

/-- A well-formed command is executed when its byte is fetched in the mode of its table (R27 `Fetch`, R86, R87). -/
theorem runsOn_encodeByte (i : Instr) (h : i.wf = true) : RunsOn i (encodeByte i) := by
  intro s rest hm hq hr
  have hi : commandOf s.mode (encodeByte i) = i := hm ▸ commandOf_encodeByte i h
  rw [step_fetch s _ rest (hm ▸ table_ne_halt i) hq hr, hi, State.fetched]

/-! ### `NUL` and the banners -/

/-- `NUL` below the threshold only counts (R110). -/
theorem exec_nul_of_ne (s : State) (h : s.cnt ≠ 19) : exec .nul s = .next { s with cnt := s.cnt + 1 } := by
  rw [exec, execNul, if_neg (mt (cntAnnounces_cntNext s.cnt).1 h)]
  rfl

/-- `NUL` at the threshold loads the banner and the `uCNT0` behind it, with the count at 20 till then (R110). -/
theorem exec_nul_of_eq (s : State) (h : s.cnt = 19) :
    exec .nul s = .next { s with cnt := 20, uq := bannerOps Config.bannerIdle ++ [.cnt0] } := by
  rw [exec, execNul, if_pos ((cntAnnounces_cntNext s.cnt).2 h), h]
  rfl

theorem bannerOps_append (bs cs : List Byte) : bannerOps (bs ++ cs) = bannerOps bs ++ bannerOps cs := List.map_append

/-- As many steps as a banner has bytes send it and leave what is pending behind it (R52). -/
theorem runSteps_bannerOps (bs : List Byte) (us : List MicroOp) (s : State) (hm : s.mode ≠ .halt) :
    runSteps bs.length (s.load (bannerOps bs ++ us)) = .next { s with uq := us, trace := s.trace ++ bs.map .tx } := by
  have hlen : (bannerOps bs).length = bs.length := List.length_map _
  have hrun := runSteps_performAll (bannerOps bs) us s _ hm (by simp [bannerOps]) (State.performAll_bannerOps bs s)
  rw [hlen, State.txString_eq] at hrun
  exact hrun

/-! ### Idle bytes in a row -/

/-- From `s` to `t` in Idle, between commands, `n` bytes 0x00 are counted: a banner is sent at each twentieth, nothing else
is sent, and no pin event is recorded (R115 (a)). -/
structure State.CountsNuls (s t : State) (n : Nat) : Prop where
  mode : t.mode = .idle
  uq : t.uq = []
  cnt : t.cnt.toNat = (s.cnt.toNat + n) % 20
  tx : txBytes t.trace = txBytes s.trace ++ (List.replicate ((s.cnt.toNat + n) / 20) Config.bannerIdle).flatten
  pins : t.trace.filter isPin = s.trace.filter isPin

theorem State.CountsNuls.refl {s : State} (hm : s.mode = .idle) (hq : s.uq = []) (hc : s.cnt.toNat ≤ 19) :
    s.CountsNuls s 0 := by
  have hlt : s.cnt.toNat + 0 < 20 := by omega
  exact ⟨hm, hq, (Nat.mod_eq_of_lt hlt).symm, by rw [Nat.div_eq_of_lt hlt]; simp, rfl⟩

/-- The count is in its range again (R22). -/
theorem State.CountsNuls.cnt_le {s t : State} {n : Nat} (h : s.CountsNuls t n) : t.cnt.toNat ≤ 19 := by
  have hcnt := h.cnt
  omega

/-- Counts in a row add up: the first leaves the remainder that the second starts from. -/
theorem State.CountsNuls.trans {s r t : State} {m n : Nat} (h : s.CountsNuls r m) (h' : r.CountsNuls t n) :
    s.CountsNuls t (m + n) := by
  have hcnt := h.cnt
  have hdiv : (s.cnt.toNat + (m + n)) / 20 = (s.cnt.toNat + m) / 20 + (r.cnt.toNat + n) / 20 := by omega
  refine ⟨h'.mode, h'.uq, by rw [h'.cnt]; omega, ?_, h'.pins.trans h.pins⟩
  rw [h'.tx, h.tx, hdiv, List.replicate_add, List.flatten_append, List.append_assoc]

/-- Events that touch no pin and send the banners due bring `n` counted bytes to their end. -/
theorem State.CountsNuls.of_trace {s r : State} {n : Nat} {es : List Event} (hm : r.mode = .idle) (hq : r.uq = [])
    (hcnt : r.cnt.toNat = (s.cnt.toNat + n) % 20) (htrace : r.trace = s.trace ++ es) (hpins : es.filter isPin = [])
    (htx : txBytes es = (List.replicate ((s.cnt.toNat + n) / 20) Config.bannerIdle).flatten) : s.CountsNuls r n :=
  ⟨hm, hq, hcnt, by rw [htrace, txBytes_append, htx], by rw [htrace, List.filter_append, hpins, List.append_nil]⟩

/-- `NUL` counts one byte, and announces the twentieth (R110). -/
theorem runSteps_nul (s : State) (rest : List Byte) (hm : s.mode = .idle) (hq : s.uq = []) (hc : s.cnt.toNat ≤ 19)
    (hr : s.rx = 0x00 :: rest) : ∃ k r, runSteps k s = .next r ∧ r.rx = rest ∧ s.CountsNuls r 1 := by
  obtain ⟨k, r, vs, hk, hrq, hrx, hmode, hcnt, -, htrace⟩ := runSteps_command .nul [] s rest rfl rfl hq hm hr
  have hrm : r.mode = .idle := hmode.trans hm
  replace hcnt : r.cnt = if s.cnt = 19 then 0 else s.cnt + 1 := hcnt
  replace htrace : r.trace = s.trace ++ .rx 0x00 :: if s.cnt = 19 then Config.bannerIdle.map .tx else [] :=
    htrace.trans (List.append_assoc ..)
  refine ⟨k, r, hk, hrx, ?_⟩
  by_cases h19 : s.cnt = 19
  · rw [if_pos h19] at hcnt htrace
    exact .of_trace hrm hrq (by rw [hcnt, h19]; rfl) htrace rfl (by rw [h19]; rfl)
  · rw [if_neg h19] at hcnt htrace
    have hlt : s.cnt.toNat + 1 < 20 := by bv_omega
    refine .of_trace hrm hrq ?_ htrace rfl (by rw [Nat.div_eq_of_lt hlt]; rfl)
    rw [hcnt, Nat.mod_eq_of_lt hlt]
    bv_omega

/-- `IGN` counts nothing (R112). -/
theorem runSteps_ign (b : Byte) (s : State) (rest : List Byte) (hwf : (Instr.ign b).wf = true) (hm : s.mode = .idle)
    (hq : s.uq = []) (hc : s.cnt.toNat ≤ 19) (hr : s.rx = b :: rest) :
    ∃ k r, runSteps k s = .next r ∧ r.rx = rest ∧ s.CountsNuls r 0 := by
  obtain ⟨k, r, vs, hk, hrq, hrx, hmode, hcnt, -, htrace⟩ := runSteps_command (.ign b) [] s rest hwf rfl hq hm hr
  replace hcnt : r.cnt = s.cnt := hcnt
  have hlt : s.cnt.toNat + 0 < 20 := by omega
  refine ⟨k, r, hk, hrx, .of_trace (hmode.trans hm) hrq ?_ (htrace.trans (List.append_assoc ..)) rfl ?_⟩
  · rw [hcnt, Nat.mod_eq_of_lt hlt]; rfl
  · rw [Nat.div_eq_of_lt hlt]; rfl

/-- Any byte but 0x05 is consumed in Idle, and counted if it is 0x00 (R114). -/
theorem runSteps_idleByte (b : Byte) (s : State) (rest : List Byte) (hb : b ≠ 0x05) (hm : s.mode = .idle)
    (hq : s.uq = []) (hc : s.cnt.toNat ≤ 19) (hr : s.rx = b :: rest) :
    ∃ k r, runSteps k s = .next r ∧ r.rx = rest ∧ s.CountsNuls r ([b].count 0x00) := by
  by_cases h0 : b = 0x00
  · subst h0
    exact runSteps_nul s rest hm hq hc hr
  · have hwf : (Instr.ign b).wf = true := Bool.and_eq_true_iff.2 ⟨bne_iff_ne.2 h0, bne_iff_ne.2 hb⟩
    rw [List.count_eq_zero_of_not_mem (by simpa using Ne.symm h0)]
    exact runSteps_ign b s rest hwf hm hq hc hr

/-- Bytes without 0x05 are consumed one after the other, and those that are 0x00 are counted (R115 (a)). -/
theorem runSteps_idleBytes (bs rest : List Byte) (s : State) (hb : 0x05 ∉ bs) (hm : s.mode = .idle) (hq : s.uq = [])
    (hc : s.cnt.toNat ≤ 19) (hr : s.rx = bs ++ rest) :
    ∃ k t, runSteps k s = .next t ∧ t.rx = rest ∧ s.CountsNuls t (bs.count 0x00) := by
  induction bs generalizing s with
  | nil => exact ⟨0, s, rfl, hr, .refl hm hq hc⟩
  | cons b bs ih =>
    obtain ⟨hne, hbs⟩ : 0x05 ≠ b ∧ 0x05 ∉ bs := by simpa using hb
    obtain ⟨j, r, hj, hrx, hbyte⟩ := runSteps_idleByte b s (bs ++ rest) hne.symm hm hq hc hr
    obtain ⟨k, t, hk, htx, hbytes⟩ := ih r hbs hbyte.mode hbyte.uq hbyte.cnt_le hrx
    have hcount : (b :: bs).count 0x00 = [b].count 0x00 + bs.count 0x00 := List.count_append (l₁ := [b])
    exact ⟨j + k, t, (runSteps_add j k s r hj).trans hk, htx, hcount ▸ hbyte.trans hbytes⟩

/-! ### Runs without pin events -/

/-- The levels driven on CLOCK are those of the pin events (R231). -/
theorem clkLevels_filter_isPin (es : List Event) : clkLevels (es.filter isPin) = clkLevels es := by
  rw [clkLevels, List.filterMap_filter]
  exact List.filterMap_congr fun e _ => by cases e <;> rfl

theorem datLevels_filter_isPin (es : List Event) : datLevels (es.filter isPin) = datLevels es := by
  rw [datLevels, List.filterMap_filter]
  exact List.filterMap_congr fun e _ => by cases e <;> rfl

/-- A run that records no pin event leaves the latches as they are (R23). -/
theorem runSteps_latches_of_filter_isPin {k : Nat} {s t : State} (h : runSteps k s = .next t)
    (hpins : t.trace.filter isPin = s.trace.filter isPin) : t.clk = s.clk ∧ t.dat = s.dat := by
  obtain ⟨es, htrace, hclk, hdat⟩ := runSteps_latches k s t h
  have hnone : es.filter isPin = [] := by simpa only [htrace, List.filter_append, List.append_right_eq_self] using hpins
  rw [hclk, hdat, foldl_clkAfter, foldl_datAfter, ← clkLevels_filter_isPin, ← datLevels_filter_isPin, hnone]
  exact ⟨rfl, rfl⟩

end Sys2Proof.Machine
end

section
/-! The settled statements about the Idle commands. -/

namespace Sys2Proof.Proofs

open Sys2Proof Sys2Proof.Machine

/-- Settles O9: what `NUL` loads at the threshold is the banner and the `uCNT0` behind it. -/
theorem nulCountsAndAnnounces : Obligations.NulCountsAndAnnounces := by
  refine ⟨runsOn_encodeByte .nul rfl, fun s hm hq => ⟨fun hlt => exec_nul_of_ne s ?_, fun h19 => ?_⟩⟩
  · intro h19
    simp [h19] at hlt
  · obtain ⟨t, he, hrun⟩ := microOperationsMatchPseudocode .nul s _ hq hm (congrArg some (refNul_eq s))
    rw [exec_nul_of_eq s h19] at he
    cases he
    rw [if_pos h19, if_pos h19] at hrun
    exact ⟨_, exec_nul_of_eq s h19, rfl, hrun⟩

/-- Settles O10: the first four steps are the banner's, and `uMODE` stands behind it. -/
theorem enterAnnouncesAndEntersRaw : Obligations.EnterAnnouncesAndEntersRaw := by
  refine ⟨runsOn_encodeByte .enter rfl, fun s hm => ?_⟩
  have hh : s.mode ≠ .halt := by rw [hm]; nofun
  refine ⟨_, rfl, fun k u hk hrun => ?_, ?_⟩
  · have hlen : (Config.bannerRaw.take k).length = k := List.length_take_of_le hk
    have hsent := runSteps_bannerOps (Config.bannerRaw.take k)
      (bannerOps (Config.bannerRaw.drop k) ++ [.mode .raw]) s hh
    rw [← List.append_assoc, ← bannerOps_append, List.take_append_drop, hlen] at hsent
    cases hsent.symm.trans hrun
    exact hm
  · have hsent := runSteps_bannerOps Config.bannerRaw [.mode .raw] s hh
    refine (runSteps_add 4 1 _ _ hsent).trans ((runSteps_one _).trans ?_)
    refine step_micro _ _ (.mode .raw) [] ?_ rfl rfl
    exact hh

/-- Settles O11: the fetch has consumed the byte and written `cmd`, and `exec` adds nothing. -/
theorem ignDiscardsTheByte : Obligations.IgnDiscardsTheByte :=
  fun s b rest hwf hm hq hr => ⟨rfl, runsOn_encodeByte (.ign b) hwf s rest hm hq hr⟩

/-- Settles O12, byte by byte; without pin events the latches stay. -/
theorem idleCounterLaw : Obligations.IdleCounterLaw := by
  intro bs rest s hm hq hc hr hb
  obtain ⟨k, t, hk, hrx, hmode, huq, hcnt, htx, hpins⟩ := runSteps_idleBytes bs rest s hb hm hq hc hr
  exact ⟨k, t, hk, hmode, huq, hrx, hcnt, htx, hpins, runSteps_latches_of_filter_isPin hk hpins⟩

end Sys2Proof.Proofs
end

/-! ## The raw-wire control statements: banners without a pin, acknowledgments without an effect, and the halt -/

section
/-! What the raw-wire control commands load (41_rawwire_control.md), and what the host's bytes leave of a halt. -/

namespace Sys2Proof.Machine

/-- RAW is a mode with steps (R12, R21). -/
theorem State.ne_halt_of_raw {s : State} (hm : s.mode = .raw) : s.mode ≠ .halt := by rw [hm]; nofun

/-- The two micro-operations behind the banner of `EXIT` enter Idle and draw a count of 0 to 19 (R130). -/
theorem runSteps_idle_cntX (s : State) (hm : s.mode ≠ .halt) (hq : s.uq = [.mode .idle, .cntX]) :
    ∃ c : BitVec 5, c.toNat ≤ 19 ∧
      runSteps 2 s = .next { s with mode := .idle, cnt := c, uq := [], draws := s.draws + 1 } := by
  have hmode := step_micro s _ (.mode .idle) [.cntX] hm hq rfl
  refine ⟨_, cntDrawn_le (Config.drawnCount s.draws s.trace), ?_⟩
  rw [runSteps_next 1 s _ hmode, runSteps_one]
  exact step_micro _ _ .cntX [] (by simp) rfl rfl

/-- A configuration command loads the acknowledgment alone, whatever its argument (R132, R133, R134). -/
theorem exec_configuration (s : State) (x : BitVec 4) (i : Instr) (hi : i ∈ [.cfgper x, .cfgspd x, .cfgmode x]) :
    exec i s = .next (s.load [ackOp]) := by
  simp only [List.mem_cons, List.not_mem_nil, or_false] at hi
  obtain rfl | rfl | rfl := hi <;> rfl

/-- An illegal byte's command changes the mode alone: with no command in progress `uq` is empty already (R135). -/
theorem exec_ill (b : Byte) (s : State) (hq : s.uq = []) : exec (.ill b) s = .next { s with mode := .halt } := by
  simp only [exec, execIll, State.raiseHalt, hq]

/-- No byte the host sends changes the mode (R28, R206). -/
theorem foldl_hostSend_mode (later : List Byte) (s : State) : (later.foldl State.hostSend s).mode = s.mode := by
  induction later generalizing s with
  | nil => rfl
  | cons b later ih => exact ih (s.hostSend b)

/-- `EXIT` from its fetch to its end: one banner, Idle, and a count in its range (R130). -/
theorem runSteps_exit (s : State) (rest : List Byte) (hm : s.mode = .raw) (hq : s.uq = []) (hr : s.rx = 0x00 :: rest) :
    ∃ k r, runSteps k s = .next r ∧ r.mode = .idle ∧ r.uq = [] ∧ r.rx = rest ∧ r.cnt.toNat ≤ 19 ∧
      txBytes r.trace = txBytes s.trace ++ Config.bannerIdle := by
  obtain ⟨k, r, vs, hk, hrq, hrx, hmode, hcnt, -, htrace⟩ := runSteps_command .exit [] s rest rfl rfl hq hm hr
  refine ⟨k, r, hk, hmode, hrq, hrx, hcnt, ?_⟩
  rw [htrace, State.fetched, txBytes_append, txBytes_append, List.append_assoc]
  rfl

end Sys2Proof.Machine
end

section
/-! The settled statements about the raw-wire control commands. -/

namespace Sys2Proof.Proofs

open Sys2Proof Sys2Proof.Machine

/-- Settles O13: five steps of the banner, then the two behind it; the count is the drawn one, of which only its range is
used. -/
theorem exitAnnouncesAndDrawsTheCount : Obligations.ExitAnnouncesAndDrawsTheCount := by
  refine ⟨runsOn_encodeByte .exit rfl, fun s hm => ?_⟩
  have hh : s.mode ≠ .halt := s.ne_halt_of_raw hm
  have hbanner := runSteps_bannerOps Config.bannerIdle [.mode .idle, .cntX] s hh
  obtain ⟨c, hc, hdraw⟩ := runSteps_idle_cntX
    { s with uq := [.mode .idle, .cntX], trace := s.trace ++ Config.bannerIdle.map .tx } hh rfl
  exact ⟨_, c, rfl, hc, (runSteps_add 5 2 _ _ hbanner).trans hdraw⟩

/-- Settles O14: the banner's four steps, with nothing behind it. -/
theorem reannAnnouncesRaw : Obligations.ReannAnnouncesRaw :=
  ⟨runsOn_encodeByte .reann rfl,
    fun s hm => ⟨_, rfl, runSteps_bannerOps Config.bannerRaw [] s (s.ne_halt_of_raw hm)⟩⟩

/-- Settles O15: the one step is the acknowledgment's. -/
theorem configurationHasNoEffect : Obligations.ConfigurationHasNoEffect := by
  refine ⟨fun x => ⟨runsOn_encodeByte (.cfgper x) rfl, runsOn_encodeByte (.cfgspd x) rfl,
    runsOn_encodeByte (.cfgmode x) rfl⟩, fun s x hm i hi => ⟨_, exec_configuration s x i hi, ?_⟩⟩
  rw [runSteps_one]
  exact step_micro (s.load [ackOp]) _ ackOp [] (s.ne_halt_of_raw hm) rfl rfl

/-- Settles O16: the fetch executes `ILL`, and bytes sent afterwards leave the mode at HALT, where there is no step. -/
theorem illegalByteHalts : Obligations.IllegalByteHalts := by
  intro s b rest hwf hm hq hr
  have hfetch := (runsOn_encodeByte (.ill b) hwf s rest hm hq hr).trans (exec_ill b (s.fetched b rest) hq)
  refine ⟨exec_ill b s hq, _, hfetch, rfl, fun later u hu => ?_⟩
  rw [step_halted _ (foldl_hostSend_mode later _)] at hu
  cases hu

/-- Settles O34: `EXIT` leaves some count in 0..19, and twenty counted bytes from any such count pass the threshold
exactly once. -/
theorem handshakeWorksAfterExit : Obligations.HandshakeWorksAfterExit := by
  intro s hm hq hr
  obtain ⟨j, r, hj, hrm, hrq, hrx, hcnt, hexit⟩ := runSteps_exit s _ hm hq hr
  obtain ⟨k, t, hk, htx, hnuls⟩ := runSteps_idleBytes (List.replicate 20 0x00) [] r (by simp) hrm hrq hcnt
    (by simpa using hrx)
  have honce : (r.cnt.toNat + (List.replicate 20 (0x00 : Byte)).count 0x00) / 20 = 1 := by
    rw [List.count_replicate_self]
    omega
  refine ⟨j + k, t, (runSteps_add j k s r hj).trans hk, hnuls.mode, hnuls.uq, htx, ?_⟩
  rw [hnuls.tx, honce, hexit]
  rfl

end Sys2Proof.Proofs
end

/-! ## The raw-wire pin statements: one line driven, or pulses of CLOCK with a sample or without -/

section
/-! What the raw-wire pin commands leave (42_rawwire_pins.md), and the edges that pulses in a row show on the wire. -/

namespace Sys2Proof.Machine

/-- The steps of what a command loads over an emptied `uq` end where its pseudocode does (R13, R27). -/
theorem runSteps_of_reference (i : Instr) (s t r : State) (hm : s.mode = i.table)
    (he : exec i (s.load []) = .next t) (hr : reference i (s.load []) = some r) :
    runSteps t.uq.length t = .next r := by
  obtain ⟨t', he', hrun⟩ := Proofs.microOperationsMatchPseudocode i (s.load []) r rfl hm hr
  cases he.symm.trans he'
  exact hrun

/-- Pulses in a row, one acknowledgment behind them (R155). -/
theorem refBclk_eq (n : BitVec 4) (s : State) :
    refBclk n s = { s with
      clk := some false
      trace := s.trace ++ ((List.replicate (n.toNat + 1) pulseEvents).flatten ++ [.tx Config.ack]) } := by
  rw [refBclk, operandCount, repeatN_pulse, State.txWrite, State.emit, List.append_assoc]

/-- From a low clock each pulse is a rising and a falling edge (R150, R155). -/
theorem clkEdges_pulses (n : Nat) :
    clkEdges (some false) (List.replicate n pulseEvents).flatten = (List.replicate n [.rising, .falling]).flatten := by
  induction n with
  | zero => rfl
  | succ n ih =>
    rw [List.replicate_succ, List.flatten_cons, clkEdges_append, List.replicate_succ, List.flatten_cons]
    exact congrArg _ ih

/-- The level before the first pulse decides that pulse's edges only: each pulse leaves the clock low (R155). -/
theorem clkEdges_pulses_succ (last : Option Level) (n : Nat) :
    clkEdges last (List.replicate (n + 1) pulseEvents).flatten =
      clkEdges last pulseEvents ++ (List.replicate n [.rising, .falling]).flatten := by
  rw [List.replicate_succ, List.flatten_cons, clkEdges_append]
  exact congrArg _ (clkEdges_pulses n)

/-- Among the edges of pulses from a low clock there are as many of either kind as there are pulses. -/
theorem count_edges_pulses (e : Edge) (he : e = .rising ∨ e = .falling) (n : Nat) :
    (List.replicate n [Edge.rising, .falling]).flatten.count e = n := by
  obtain rfl | rfl := he <;> simp [List.count_flatten]

end Sys2Proof.Machine
end

section
/-! The settled statements about the raw-wire pin commands. -/

namespace Sys2Proof.Proofs

open Sys2Proof Sys2Proof.Machine

/-- Settles O18: the level that is sampled is the level that is replied. -/
theorem rdbitRepliesTheSample : Obligations.RdbitRepliesTheSample := by
  refine ⟨runsOn_encodeByte .rdbit rfl, fun s hm => ?_⟩
  obtain ⟨v, hv, href⟩ := refRdbit_eq (s.load [])
  exact ⟨_, v, rfl, hv, runSteps_of_reference .rdbit s _ _ hm rfl (congrArg some href)⟩

/-- Settles O19: `CLKTICK` loads what `BCLK 1` loads, and so leaves what one pulse of it leaves. -/
theorem clktickPulsesOnce : Obligations.ClktickPulsesOnce :=
  ⟨runsOn_encodeByte .clktick rfl, fun s hm => ⟨_, rfl, rfl,
    runSteps_of_reference (.bclk 0) s _ _ hm rfl (congrArg some (refBclk_eq 0 (s.load [])))⟩⟩

/-- Settles O20: the pseudocode drives CLOCK and acknowledges. -/
theorem setclkDrivesClock : Obligations.SetclkDrivesClock := by
  refine ⟨runsOn_encodeByte (.setclk false) rfl, runsOn_encodeByte (.setclk true) rfl, fun s l hm => ⟨_, rfl, ?_⟩⟩
  have hrun := runSteps_of_reference (.setclk l) s _ _ hm rfl rfl
  rwa [refSetclk, State.clkSet, State.txWrite, State.emit, List.append_assoc] at hrun

/-- Settles O21: the pseudocode drives DATA and acknowledges. -/
theorem setdatDrivesData : Obligations.SetdatDrivesData := by
  refine ⟨runsOn_encodeByte (.setdat false) rfl, runsOn_encodeByte (.setdat true) rfl, fun s l hm => ⟨_, rfl, ?_⟩⟩
  have hrun := runSteps_of_reference (.setdat l) s _ _ hm rfl rfl
  rwa [refSetdat, State.datSet, State.txWrite, State.emit, List.append_assoc] at hrun

/-- Settles O22: the first pulse's rising edge is there only if the clock was low before it; all other edges of the pulses
are from a low clock. -/
theorem bclkPulsesNTimes : Obligations.BclkPulsesNTimes := by
  refine ⟨fun n => runsOn_encodeByte (.bclk n) rfl, fun s n hm => ⟨_, _, rfl, ?_, rfl, ?_, fun hlow => ?_, fun hhigh => ?_⟩⟩
  · simp [operandCount, pulseOps, Nat.mul_comm]
  · exact runSteps_of_reference (.bclk n) s _ _ hm rfl (congrArg some (refBclk_eq n (s.load [])))
  · rw [hlow, clkEdges_pulses]
    exact ⟨count_edges_pulses .rising (.inl rfl) _, count_edges_pulses .falling (.inr rfl) _⟩
  · have hfirst : clkEdges (some true) pulseEvents = [.same, .falling] := rfl
    rw [hhigh, clkEdges_pulses_succ, hfirst, List.count_append, List.count_append,
      count_edges_pulses .rising (.inl rfl), count_edges_pulses .falling (.inr rfl)]
    exact ⟨Nat.zero_add _, Nat.add_comm ..⟩

end Sys2Proof.Proofs
end

/-! ## The byte-transfer statements: a byte read, a bulk write whose bytes are there, and one that waits for its bytes -/

section
/-! What a bulk write does with the data bytes it got, and where it waits for more (43_bitbang_transfer.md R173). -/

namespace Sys2Proof.Machine

theorem copies_add (m n : Nat) (us : List MicroOp) : copies (m + n) us = copies m us ++ copies n us := by
  induction m with
  | zero => rw [Nat.zero_add]; rfl
  | succ m ih => rw [Nat.add_right_comm, copies, ih, copies, List.append_assoc]

/-- A bulk write of `n` bytes is an acknowledgment and 58 micro-operations for each byte (R173). -/
theorem bwriteOps_length (n : Nat) : (ackOp :: copies n byteOps).length = 1 + 58 * n := by
  have hbyte : byteOps.length = 58 := rfl
  rw [List.length_cons, copies_length, hbyte]
  omega

/-- Data bytes that are there, or none, are written in a row, with the mode unchanged. -/
theorem repeatRead_refDataByte_of_rx (ds : List Byte) (s : State) (rest : List Byte) (hr : s.rx = ds ++ rest) :
    ∃ r, repeatRead ds.length refDataByte s = some r ∧ r.mode = s.mode ∧ r.rx = rest ∧
      r.trace = s.trace ++ ds.flatMap dataByteEvents := by
  cases ds with
  | nil => exact ⟨s, rfl, rfl, hr, (List.append_nil _).symm⟩
  | cons b ds => exact ⟨_, repeatRead_refDataByte ds b s rest hr, rfl, rfl, rfl⟩

/-- The steps of a bulk write over its first data bytes acknowledge, write those bytes, and leave the micro-operations of
the bytes still to come (R173). -/
theorem runSteps_bwrite_prefix (n : Nat) (ds : List Byte) (s : State) (rest : List Byte) (hm : s.mode ≠ .halt)
    (hr : s.rx = ds ++ rest) :
    ∃ r : State, runSteps (1 + 58 * ds.length) (s.load (ackOp :: copies (ds.length + n) byteOps)) =
        .next (r.load (copies n byteOps)) ∧
      r.mode = s.mode ∧ r.rx = rest ∧ r.trace = s.trace ++ .tx Config.ack :: ds.flatMap dataByteEvents := by
  obtain ⟨r, href, hmode, hrx, htrace⟩ := repeatRead_refDataByte_of_rx ds (s.txWrite Config.ack) rest hr
  have hperform : s.performAll (ackOp :: copies ds.length byteOps) = some r :=
    (State.performAll_copies_read State.performAll_byteOps ds.length (s.txWrite Config.ack)).trans href
  have hops : MicroOp.mode .halt ∉ ackOp :: copies ds.length byteOps := by
    have hhalt : MicroOp.mode .halt ∉ ackOp :: byteOps := by decide
    exact fun h => hhalt (List.mem_cons.2 ((List.mem_cons.1 h).imp_right mem_of_mem_copies))
  have hrun := runSteps_performAll _ (copies n byteOps) s r hm hops hperform
  rw [bwriteOps_length, List.cons_append, ← copies_add] at hrun
  exact ⟨r, hrun, hmode, hrx, htrace.trans (List.append_assoc ..)⟩

/-- The next byte the host sends to a sequencer that waits in `uRXsh` is read into `sh`, whatever it is (R51, R59). -/
theorem step_hostSend_of_stalled (s : State) (b : Byte) (us : List MicroOp) (hm : s.mode ≠ .halt)
    (hq : s.uq = .rxSh :: us) (hr : s.rx = []) :
    step (s.hostSend b) = .next { s with uq := us, sh := b, trace := s.trace ++ [.rx b] } := by
  have hsent : (s.hostSend b).rx = [b] := by rw [State.hostSend_rx, hr]; rfl
  have hread : (s.hostSend b).perform .rxSh = some { s with rx := [], sh := b, trace := s.trace ++ [.rx b] } := by
    rw [State.perform, (s.hostSend b).rxRead_cons b [] hsent]
    rfl
  rw [step_micro (s.hostSend b) _ .rxSh us hm hq hread, State.load, ← hr]

end Sys2Proof.Machine
end

section
/-! The settled statements about the byte transfers. -/

namespace Sys2Proof.Proofs

open Sys2Proof Sys2Proof.Machine

/-- Settles O23: the pseudocode's eight samples are the ones recorded, and sample `j` stands in bit `j` of what it
assembles. -/
theorem rdbyteAssemblesTheSamples : Obligations.RdbyteAssemblesTheSamples := by
  refine ⟨runsOn_encodeByte .rdbyte rfl, fun s hm => ?_⟩
  obtain ⟨vs, hl, hvs, href⟩ := refRdbyte_eq (s.load [])
  exact ⟨_, vs, rfl, rfl, hl, hvs, getLsbD_assembled vs,
    runSteps_of_reference .rdbyte s _ _ hm rfl (congrArg some href)⟩

/-- Settles O24: with its data bytes there the pseudocode does not block, and 58 micro-operations stand for each byte. -/
theorem bwriteShiftsEachByteOut : Obligations.BwriteShiftsEachByteOut := by
  refine ⟨fun n => runsOn_encodeByte (.bwrite n) rfl, fun s n ds rest hm hl hr =>
    ⟨_, rfl, bwriteOps_length (operandCount n), ?_⟩⟩
  exact runSteps_of_reference (.bwrite n) s _ _ hm rfl (refBwrite_eq n ds (s.load []) rest hl hr)

/-- Settles O25: the bytes that came are written as in a whole bulk write, and with more to come the next
micro-operation is `uRXsh`, which stalls till a byte is there. -/
theorem shortBulkWriteStalls : Obligations.ShortBulkWriteStalls := by
  intro s n ds hm hl hr
  obtain ⟨m, hcount⟩ : ∃ m, n.toNat + 1 = ds.length + (m + 1) := Nat.exists_eq_add_of_lt hl
  obtain ⟨r, hrun, hmode, hrx, htrace⟩ :=
    runSteps_bwrite_prefix (m + 1) ds s [] (s.ne_halt_of_raw hm) (by rw [hr, List.append_nil])
  have hraw : r.mode = .raw := hmode.trans hm
  have hhalt : r.mode ≠ .halt := r.ne_halt_of_raw hraw
  rw [← hcount] at hrun
  have hleft : copies (n.toNat + 1 - ds.length) byteOps = copies (m + 1) byteOps := by
    rw [hcount, Nat.add_sub_cancel_left]
  refine ⟨_, _, rfl, hrun, hleft.symm, hrx, hraw, htrace, fun k => ?_, fun b => ?_⟩
  · exact runSteps_stay k _ (step_stalled _ _ hhalt rfl hrx)
  · exact step_hostSend_of_stalled _ b _ hhalt rfl hrx

end Sys2Proof.Proofs
end

/-! ## The exception statements: what is left of a halt, whatever the other agents do, until reset -/

section
/-! What the actions of the three agents do to a halted sequencer (60_exceptions.md R190, R206). -/

namespace Sys2Proof.Machine

theorem sentBytes_cons (a : Action) (as : List Action) : sentBytes (a :: as) = sentBytes [a] ++ sentBytes as := by
  rw [sentBytes, sentBytes, sentBytes, ← List.filterMap_append, List.singleton_append]

/-- The state after the host has sent the bytes `bs` and the wire environment has given the answers `ws`. -/
def State.piled (s : State) (bs : List Byte) (ws : List Level) : State :=
  { s with rx := s.rx ++ bs, wire := s.wire ++ ws }

theorem State.piled_nil (s : State) : s.piled [] [] = s := by
  rw [State.piled, List.append_nil, List.append_nil]

theorem State.piled_piled (s : State) (bs cs : List Byte) (vs ws : List Level) :
    (s.piled bs vs).piled cs ws = s.piled (bs ++ cs) (vs ++ ws) := by
  rw [State.piled, State.piled, List.append_assoc, List.append_assoc, State.piled]

theorem State.hostSend_eq_piled (s : State) (b : Byte) : s.hostSend b = s.piled [b] [] := by
  rw [State.hostSend, State.piled, List.append_nil]

theorem State.wireAnswer_eq_piled (s : State) (v : Level) : s.wireAnswer v = s.piled [] [v] := by
  rw [State.wireAnswer, State.piled, List.append_nil]

/-- The host and the wire environment change nothing of the sequencer, in any mode: the one appends to the serial input,
the other to its own answers (R206). -/
theorem act_piles (a : Action) (s : State) (hreset : a ≠ .reset) (hstep : a ≠ .step) :
    ∃ ws, act a s = .next (s.piled (sentBytes [a]) ws) := by
  cases a with
  | step => exact absurd rfl hstep
  | send b => exact ⟨[], congrArg _ (s.hostSend_eq_piled b)⟩
  | answer v => exact ⟨[v], congrArg _ (s.wireAnswer_eq_piled v)⟩
  | reset => exact absurd rfl hreset

theorem runActions_piles (as : List Action) (s : State) (hreset : .reset ∉ as) (hstep : .step ∉ as) :
    ∃ ws, runActions as s = .next (s.piled (sentBytes as) ws) := by
  induction as generalizing s with
  | nil => exact ⟨[], congrArg _ s.piled_nil.symm⟩
  | cons a as ih =>
    rw [List.mem_cons, not_or] at hreset hstep
    obtain ⟨vs, ha⟩ := act_piles a s (Ne.symm hreset.1) (Ne.symm hstep.1)
    obtain ⟨ws, has⟩ := ih (s.piled (sentBytes [a]) vs) hreset.2 hstep.2
    refine ⟨vs ++ ws, ?_⟩
    rw [runActions, ha, sentBytes_cons a as, ← State.piled_piled]
    exact has

/-- A step of a halted sequencer is the fault, however late in the run it comes (R190). -/
theorem runActions_step_of_halt (as : List Action) (s : State) (hm : s.mode = .halt) (hreset : .reset ∉ as)
    (hstep : .step ∈ as) : runActions as s = .fault .halted := by
  induction as generalizing s with
  | nil => cases hstep
  | cons a as ih =>
    rw [List.mem_cons, not_or] at hreset
    by_cases ha : a = .step
    · rw [runActions, ha, act, step_halted s hm]
    · obtain ⟨ws, hact⟩ := act_piles a s (Ne.symm hreset.1) ha
      rw [runActions, hact]
      exact ih (s.piled (sentBytes [a]) ws) hm hreset.2 ((List.mem_cons.1 hstep).resolve_left (Ne.symm ha))

end Sys2Proof.Machine
end

section
/-! The settled statement about the exception. -/

namespace Sys2Proof.Proofs

open Sys2Proof Sys2Proof.Machine

/-- Settles O17: a step in HALT is the fault, and no other action but reset writes the sequencer's own elements. -/
theorem haltLastsUntilReset : Obligations.HaltLastsUntilReset :=
  fun s hm => ⟨fun as hreset => ⟨runActions_step_of_halt as s hm hreset, runActions_piles as s hreset⟩, rfl⟩

end Sys2Proof.Proofs
end

/-! ## The reset and hazard statements: what each command records, in numbers, and what reset leaves -/

section
/-! Events counted kind by kind (70_reset_and_hazards.md R231): lists in a row add up. -/

namespace Sys2Proof.Machine

/-- The columns of R231's table: holds, `CLK` events, `DAT` events, samples, bytes sent and bytes consumed. -/
def eventCounts (es : List Event) : Nat × Nat × Nat × Nat × Nat × Nat :=
  (holds es, (clkLevels es).length, (datLevels es).length, (smpLevels es).length, (txBytes es).length,
    (rxBytes es).length)

theorem eventCounts_append (a b : List Event) : eventCounts (a ++ b) = eventCounts a + eventCounts b := by
  simp [eventCounts]

theorem eventCounts_cons (e : Event) (es : List Event) : eventCounts (e :: es) = eventCounts [e] + eventCounts es :=
  eventCounts_append [e] es

@[simp] theorem eventCounts_rx (b : Byte) : eventCounts [.rx b] = (0, 0, 0, 0, 0, 1) := rfl
@[simp] theorem eventCounts_tx (b : Byte) : eventCounts [.tx b] = (0, 0, 0, 0, 1, 0) := rfl

/-- Lists with the same counts in a row: their number times those counts. -/
theorem eventCounts_flatten (c : Nat × Nat × Nat × Nat × Nat × Nat) (ess : List (List Event))
    (h : ∀ es ∈ ess, eventCounts es = c) : eventCounts ess.flatten = ess.length • c := by
  induction ess with
  | nil => exact (zero_nsmul c).symm
  | cons es ess ih =>
    obtain ⟨hes, hess⟩ := List.forall_mem_cons.1 h
    rw [List.flatten_cons, eventCounts_append, hes, ih hess, List.length_cons, succ_nsmul']

theorem eventCounts_flatMap {α : Type} (f : α → List Event) (c : Nat × Nat × Nat × Nat × Nat × Nat)
    (h : ∀ a, eventCounts (f a) = c) (as : List α) : eventCounts (as.flatMap f) = as.length • c := by
  rw [List.flatMap_def, eventCounts_flatten c _ (List.forall_mem_map.2 fun a _ => h a), List.length_map]

/-- Pulses in a row, each with its two holds and two `CLK` events (R150). -/
theorem eventCounts_pulses (n : Nat) :
    eventCounts (List.replicate n pulseEvents).flatten = n • (2, 2, 0, 0, 0, 0) := by
  have hpulse : eventCounts pulseEvents = (2, 2, 0, 0, 0, 0) := rfl
  rw [eventCounts_flatten _ _ fun _ h => List.eq_of_mem_replicate h ▸ hpulse, List.length_replicate]

/-- Bits read in a row, each a pulse with a sample in it (R171). -/
theorem eventCounts_readBits (vs : List Level) :
    eventCounts (vs.flatMap readBitEvents) = vs.length • (2, 2, 0, 1, 0, 0) :=
  eventCounts_flatMap readBitEvents (2, 2, 0, 1, 0, 0) (fun _ => rfl) vs

/-- Data bytes in a row, each with its `RX` event, eight bits and an acknowledgment (R173). -/
theorem eventCounts_dataBytes (ds : List Byte) :
    eventCounts (ds.flatMap dataByteEvents) = ds.length • (24, 16, 8, 0, 1, 1) :=
  eventCounts_flatMap dataByteEvents (24, 16, 8, 0, 1, 1) (fun _ => rfl) ds

end Sys2Proof.Machine
end

section
/-! The settled statements about event counts and reset. -/

namespace Sys2Proof.Proofs

open Sys2Proof Sys2Proof.Machine

/-- Settles O46: reset leaves nothing pending and no byte to fetch, and that state waits. -/
theorem resetAbandonsEverything : Obligations.ResetAbandonsEverything :=
  fun s => ⟨s.hardReset, rfl, rfl, rfl, rfl, rfl, rfl, rfl, rfl,
    fun k => runSteps_stay k s.hardReset (step_wait s.hardReset nofun rfl rfl)⟩

/-- Settles O32: a command records its fetch and the events of its rule; what repeats in them is counted once and
multiplied. -/
theorem eventCountsPerCommand : Obligations.EventCountsPerCommand := by
  rintro ⟨i, ds⟩ s rest hline hq hm hr
  obtain ⟨hwf, hl⟩ : i.wf = true ∧ ds.length = i.dataBytes := by simpa [HostLine.wf] using hline
  obtain ⟨k, r, vs, hk, hrq, hrx, -, -, hvs, htrace⟩ := runSteps_command i ds s rest hwf hl hq hm hr
  refine ⟨k, r, .rx (encodeByte i) :: commandEvents i ds s.cnt vs, hk, hrq, hrx,
    htrace.trans (List.append_assoc ..), ?_⟩
  change eventCounts (.rx (encodeByte i) :: commandEvents i ds s.cnt vs) = _
  cases i with
  | nul =>
    by_cases h : s.cnt = 19
    · rw [commandEvents, if_pos h, if_pos h]; rfl
    · rw [commandEvents, if_neg h, if_neg h]; rfl
  | rdbyte =>
    rw [commandEvents, eventCounts_cons, eventCounts_cons (.dat true), eventCounts_append, eventCounts_readBits, hvs]
    rfl
  | rdbit =>
    obtain ⟨v, rfl⟩ := List.length_eq_one_iff.1 hvs
    rfl
  | bwrite n =>
    rw [commandEvents, eventCounts_cons, eventCounts_cons (.tx Config.ack), eventCounts_dataBytes, hl]
    simp [Instr.dataBytes, operandCount, Nat.mul_comm, Nat.add_comm 1]
  | bclk n =>
    rw [commandEvents, eventCounts_cons, eventCounts_append, eventCounts_pulses]
    simp [operandCount, Nat.mul_comm]
  | _ => rfl

end Sys2Proof.Proofs
end
